-- ==== Sys2Proof/Word.lean ====
section
/-! DEFINITION. The words of the CHACHA8RAND core: 32-bit words, bytes, the 16-bit cursor width and the 8-word key
(00_scope.md R5, R6, R8; 10_state.md R21, R23). -/

namespace Sys2Proof

/-- A byte, u8 (R8). -/
abbrev Byte := BitVec 8

/-- A word of the data path and of both ports, u32 (R5 WORD, R70). -/
abbrev Word := BitVec 32

/-- The width of the cursor register CUR (R5, decision D10). -/
abbrev Half := BitVec 16

/-- Eight 32-bit words: the key K[0] to K[7], a seed, or a snapshot's seed (R21, R73). -/
abbrev Key := Vector Word 8

end Sys2Proof
end

