-- ==== Sys2Proof/Config.lean ====
section
/-! DEFINITION. The model arguments of 00_scope.md R5: AVAIL (which kernels this instance of the hardware has) and
BK_SEL (the backend strap). Both are opaque: a claim about the model holds for every admitted value (DESIGN CHOICE, safe: log entry 2). -/

namespace Sys2Proof

/-- A lane width of the batch kernel: 1 (scalar), 4 or 8 (R5 LANES, R25). -/
inductive Lanes where
  | one
  | four
  | eight
  deriving DecidableEq, Repr, Inhabited

/-- The lane width as a number. -/
def Lanes.count : Lanes → Nat
  | .one => 1
  | .four => 4
  | .eight => 8

/-- Whether this instance of the hardware has the 4-lane kernel (R5 AVAIL, R144). -/
opaque Config.avail4 : Bool

/-- Whether this instance of the hardware has the 8-lane kernel (R5 AVAIL, R144). -/
opaque Config.avail8 : Bool

/-- AVAIL, as membership. It always contains 1 (R144). There is one AVAIL in the model: all cores of a system (R204) and
both cores of a comparison (R36) have the same, where the spec leaves open whether theirs may differ (DESIGN CHOICE, unsafe:
log entry 15). -/
def Config.avail : Lanes → Bool
  | .one => true
  | .four => Config.avail4
  | .eight => Config.avail8

/-- A backend: a lane width this instance has. A backend outside AVAIL cannot be written down (R144, R200). It is the type
of BK in every core, since AVAIL is one for all (log entry 15). -/
abbrev Backend := { l : Lanes // Config.avail l = true }

/-- The scalar backend, which every instance has (R138, R144). -/
def Backend.scalar : Backend := ⟨.one, rfl⟩

/-- The strap BK_SEL: AUTO, or a member of AVAIL (R5, R145). -/
inductive BkSel where
  | auto
  | explicit (b : Backend)
  deriving DecidableEq, Repr, Inhabited

/-- The value of BK_SEL at the reset that `Machine.State.reset` stands for (R5, R220). -/
opaque Config.bkSel : BkSel

end Sys2Proof
end

