-- ==== Sys2Proof/Machine/Params.lean ====
section
/-! DEFINITION. The fixed parameters of 00_scope.md R5 and the address map of 20_memory.md R65. -/

namespace Sys2Proof.Machine

/-- BUF_BYTES: the working buffer's size in bytes, addresses 0 to 1023 (R5, R50). -/
def bufBytes : Nat := 1024

/-- OUT_BYTES: the Output Region, bytes 0 to 991 (R5, R65). -/
def outBytes : Nat := 992

/-- The first word of the NextKey Region, words 248 to 255 (R22, R65). -/
def nextKeyWord : Nat := 248

/-- CONST[0]: bytes "expa" (R107, general knowledge K1: PRESUMED, log entry 11). -/
def const0 : Word := 0x61707865

/-- CONST[1]: bytes "nd 3" (R107, general knowledge K1: PRESUMED, log entry 11). -/
def const1 : Word := 0x3320646e

/-- CONST[2]: bytes "2-by" (R107, general knowledge K1: PRESUMED, log entry 11). -/
def const2 : Word := 0x79622d32

/-- CONST[3]: bytes "te k" (R107, general knowledge K1: PRESUMED, log entry 11). -/
def const3 : Word := 0x6b206574

end Sys2Proof.Machine
end

