-- ==== Sys2Proof/Machine/Block.lean ====
section
/-! DEFINITION. The block transform (40_block_transform.md), written once over the small vector-operation interface
(41_batch_kernel.md R134, "expressed once, generically") and used at the scalar words here. Index sets, constants, wrapping
addition and rotation direction are the spec's general-knowledge passages K1 to K3 and K6 (PRESUMED, log entry 11). -/

namespace Sys2Proof.Machine

/-- ADD32: addition modulo 2^32, the carry dropped (R100). -/
def add32 (a b : Word) : Word := a + b

/-- XOR32 (R101). -/
def xor32 (a b : Word) : Word := a ^^^ b

/-- SHL32: (a * 2^n) mod 2^32 (R102). -/
def shl32 (a : Word) (n : Nat) : Word := a <<< n

/-- SHR32: floor(a / 2^n), zero fill (R102). -/
def shr32 (a : Word) (n : Nat) : Word := a >>> n

/-- ROTL32, built of the two shifts (R102). -/
def rotl32 (a : Word) (n : Nat) : Word := shl32 a n ||| shr32 a (32 - n)

/-- The operations a block transform needs of a register of type `α`: one word, or one word per lane (R130 to R132). -/
structure Arx (α : Type) where
  /-- ADD32 or VADD. -/
  add : α → α → α
  /-- XOR32 or VXOR. -/
  xor : α → α → α
  /-- ROTL32 or VROTL. -/
  rotl : α → Nat → α
  /-- A word in every lane (VSPLAT). -/
  splat : Word → α
  /-- The block counters, one per lane (VCTR). -/
  counters : Word → α

/-- The scalar registers: one block at a time (R26). -/
def scalarArx : Arx Word where
  add := add32
  xor := xor32
  rotl := rotl32
  splat v := v
  counters c := c

/-- QR on four values in the roles a, b, c, d (R103). -/
def quarterRound {α : Type} (o : Arx α) (a b c d : α) : α × α × α × α :=
  let a := o.add a b; let d := o.rotl (o.xor d a) 16
  let c := o.add c d; let b := o.rotl (o.xor b c) 12
  let a := o.add a b; let d := o.rotl (o.xor d a) 8
  let c := o.add c d; let b := o.rotl (o.xor b c) 7
  (a, b, c, d)

/-- QR(i, j, k, m) on the working registers: read the four, compute, write the four back (R103). -/
def qrAt {α : Type} (o : Arx α) (i j k m : Fin 16) (x : Vector α 16) : Vector α 16 :=
  let r := quarterRound o x[i] x[j] x[k] x[m]
  (((x.set i r.1).set j r.2.1).set k r.2.2.1).set m r.2.2.2

/-- COLUMN_ROUND (R104). -/
def columnRound {α : Type} (o : Arx α) (x : Vector α 16) : Vector α 16 :=
  let x := qrAt o 0 4 8 12 x
  let x := qrAt o 1 5 9 13 x
  let x := qrAt o 2 6 10 14 x
  qrAt o 3 7 11 15 x

/-- DIAGONAL_ROUND (R105). -/
def diagonalRound {α : Type} (o : Arx α) (x : Vector α 16) : Vector α 16 :=
  let x := qrAt o 0 5 10 15 x
  let x := qrAt o 1 6 11 12 x
  let x := qrAt o 2 7 8 13 x
  qrAt o 3 4 9 14 x

/-- DOUBLE_ROUND: a column round, then a diagonal round (R106). -/
def doubleRound {α : Type} (o : Arx α) (x : Vector α 16) : Vector α 16 := diagonalRound o (columnRound o x)

/-- INIT_STATE: four constants, eight key words, the counter, three zeros (R107; R134 for lanes). -/
def initState {α : Type} (o : Arx α) (key : Key) (ctr : Word) : Vector α 16 :=
  #v[o.splat const0, o.splat const1, o.splat const2, o.splat const3,
     o.splat key[0], o.splat key[1], o.splat key[2], o.splat key[3],
     o.splat key[4], o.splat key[5], o.splat key[6], o.splat key[7],
     o.counters ctr, o.splat 0, o.splat 0, o.splat 0]

/-- ROUNDS: four double rounds (R108). -/
def rounds {α : Type} (o : Arx α) (x : Vector α 16) : Vector α 16 :=
  doubleRound o (doubleRound o (doubleRound o (doubleRound o x)))

/-- FEED_FORWARD: the original key words are added into words 4 to 11, and nothing else (R109). -/
def feedForward {α : Type} (o : Arx α) (key : Key) (x : Vector α 16) : Vector α 16 :=
  Vector.ofFn fun w : Fin 16 =>
    if h : 4 ≤ w.val ∧ w.val < 12 then o.add x[w] (o.splat (key[w.val - 4]'(by omega))) else x[w]

/-- The block transform over registers of type `α` (R110, R134). -/
def transform {α : Type} (o : Arx α) (key : Key) (ctr : Word) : Vector α 16 :=
  feedForward o key (rounds o (initState o key ctr))

/-- BLOCK(key, ctr): 16 words, total over every key and every counter (R110, R113). -/
def block (key : Key) (ctr : Word) : Vector Word 16 := transform scalarArx key ctr

end Sys2Proof.Machine
end

