-- ==== Sys2Proof/Machine/Backend.lean ====
section
/-! DEFINITION. The backend selection rule, 41_batch_kernel.md R145. -/

namespace Sys2Proof.Machine

/-- `select(BK_SEL, AVAIL)`: AUTO takes the widest available kernel, an explicit strap is taken as it is (R145).
It never fails (R146), and its result is a member of AVAIL by its type (R144). -/
def select : BkSel → Backend
  | .auto =>
    if h8 : Config.avail .eight = true then ⟨.eight, h8⟩
    else if h4 : Config.avail .four = true then ⟨.four, h4⟩
    else Backend.scalar
  | .explicit b => b

end Sys2Proof.Machine
end

