-- ==== Sys2Proof/Machine/Operands.lean ====
section
/-! DEFINITION. Byte order and the operand and result forms: le32, le64, bytes32, bytes64 (00_scope.md R8), a seed as
32 bytes or as 8 words (20_memory.md R51, 30_encoding.md R73), and the packing of a byte string into port words
(20_memory.md R63). -/

namespace Sys2Proof.Machine

/-- The value of a byte string, least significant byte first: the sum of 2^(8i) times byte i (R8). -/
def leNat : List Byte → Nat
  | [] => 0
  | b :: bs => b.toNat + 256 * leNat bs

/-- le32 of a string of at most 4 bytes; missing high bytes count as zero (R8, R63). -/
def le32 (bs : List Byte) : Word := BitVec.ofNat 32 (leNat bs)

/-- le64 of 8 bytes (R8). -/
def le64 (bs : List Byte) : BitVec 64 := BitVec.ofNat 64 (leNat bs)

/-- bytes32: the 4 bytes of a word, least significant first (R8). -/
def bytes32 (v : Word) : List Byte :=
  [v.extractLsb' 0 8, v.extractLsb' 8 8, v.extractLsb' 16 8, v.extractLsb' 24 8]

/-- bytes64: the 8 bytes of a u64, least significant first (R8). -/
def bytes64 (v : BitVec 64) : List Byte :=
  [v.extractLsb' 0 8, v.extractLsb' 8 8, v.extractLsb' 16 8, v.extractLsb' 24 8,
   v.extractLsb' 32 8, v.extractLsb' 40 8, v.extractLsb' 48 8, v.extractLsb' 56 8]

/-- The byte string of a list of words, each least significant byte first (R51 (ii)). -/
def bytesOfWords (ws : List Word) : List Byte := ws.flatMap bytes32

/-- The key as its 32-byte string (R21, R51 (v)). -/
def bytesOfKey (k : Key) : List Byte := bytesOfWords k.toList

/-- Key words from a 32-byte seed: word j is le32 of seed bytes 4j to 4j+3 (R51 (i), R73). -/
def keyOfBytes (seed : Vector Byte 32) : Key :=
  Vector.ofFn fun j : Fin 8 =>
    le32 [seed[4 * j.val]'(by omega), seed[4 * j.val + 1]'(by omega),
          seed[4 * j.val + 2]'(by omega), seed[4 * j.val + 3]'(by omega)]

/-- A byte string as the words that carry it over a port: byte i is bits 8*(i mod 4)+7 to 8*(i mod 4) of word
i div 4, and the unused high bytes of the last word are zero (R63). -/
def packWords : List Byte → List Word
  | [] => []
  | [a] => [le32 [a]]
  | [a, b] => [le32 [a, b]]
  | [a, b, c] => [le32 [a, b, c]]
  | a :: b :: c :: d :: rest => le32 [a, b, c, d] :: packWords rest

end Sys2Proof.Machine
end

