-- ==== Sys2Proof/Machine/Memory.lean ====
section
/-! DEFINITION. The working buffer BUF, the hardware's only memory (20_memory.md R50): bytes 0 to 1023, held as
(address, byte) pairs in one canonical form, with its byte view and its word view (10_state.md R22, 20_memory.md R51). -/

namespace Sys2Proof.Machine

/-- The buffer's bytes: addresses strictly rising, no entry equal to what an unlisted address reads as. -/
abbrev Memory := List Host.Cell

/-- What an unlisted address reads as. The spec gives the buffer no value before the first fill (R33) and no command
reads it then (R193): DESIGN CHOICE 0x00, log entry 3. -/
def unlistedByte : Byte := 0

/-- The byte at address `a`. -/
def Memory.readByte : Memory → Nat → Byte
  | [], _ => unlistedByte
  | (b, v) :: m, a => if b = a then v else Memory.readByte m a

/-- An entry in front of `m`, unless it holds what an unlisted address reads as. -/
def Memory.consByte (a : Nat) (v : Byte) (m : Memory) : Memory :=
  if v = unlistedByte then m else (a, v) :: m

/-- Sets the byte at address `a`, keeping the canonical form. -/
def Memory.writeByte : Memory → Nat → Byte → Memory
  | [], a, v => Memory.consByte a v []
  | (b, w) :: m, a, v =>
    if a < b then Memory.consByte a v ((b, w) :: m)
    else if a = b then Memory.consByte a v m
    else (b, w) :: Memory.writeByte m a v

/-- Sets the bytes from address `a` on to the given string. -/
def Memory.writeBytes : Memory → Nat → List Byte → Memory
  | m, _, [] => m
  | m, a, v :: vs => Memory.writeBytes (Memory.writeByte m a v) (a + 1) vs

/-- The `n` bytes from address `a` on, in address order. -/
def Memory.readBytes (m : Memory) (a n : Nat) : List Byte := (List.range n).map fun i => m.readByte (a + i)

/-- BUF[i], the word view: byte 4i+k of the buffer is bits 8k+7 to 8k of BUF[i] (R22, R51 (ii)). -/
def Memory.readWord (m : Memory) (i : Nat) : Word := le32 (m.readBytes (4 * i) 4)

/-- A memory whose bytes from address `a` on are the given string, and which lists nothing else. -/
def Memory.ofBytesAt : Nat → List Byte → Memory
  | _, [] => []
  | a, v :: vs => Memory.consByte a v (Memory.ofBytesAt (a + 1) vs)

/-- A memory holding the given words from word 0 on (R51 (ii)). -/
def Memory.ofWords (ws : List Word) : Memory := Memory.ofBytesAt 0 (bytesOfWords ws)

/-- The canonical form from address `lo` on: addresses rising, inside the buffer, none listed with the unlisted value. -/
def Memory.wfFrom : Nat → Memory → Bool
  | _, [] => true
  | lo, (a, v) :: m => decide (lo ≤ a) && decide (a < bufBytes) && decide (v ≠ unlistedByte) && Memory.wfFrom (a + 1) m

/-- The canonical form holds. -/
def Memory.wf (m : Memory) : Bool := Memory.wfFrom 0 m

end Sys2Proof.Machine
end

