-- ==== Sys2Proof/Machine/State.lean ====
section
/-! DEFINITION. The state of one CHACHA8RAND core (10_state.md R20), the reasons a step can stop, and the state after
reset (10_state.md R33, 70_reset_and_hazards.md R220). -/

namespace Sys2Proof.Machine

/-- Why a step stops without a next state. No well-formed state of the machine raises one (`Good` in Safety.lean). -/
inductive Fault where
  /-- Raised by the read commands when CUR is above 992: the spec says such a value is never stored (R23, R32) and
  gives `992 - CUR` no meaning for it (R112). Safe: the model stops where the spec has no state (DEDUCED: log
  entry 7). -/
  | cursorOutOfRange (cur : Half)
  /-- Raised by a buffer access that leaves byte addresses 0 to 1023, which R52 calls "an error of the spec, not a
  behaviour of the hardware". Safe: the model stops at an address that does not exist (DEDUCED: log
  entry 7). -/
  | outsideBuffer (addr len : Nat)
  deriving DecidableEq, Repr

/-- Why the model gives an instruction no meaning. -/
inductive Refusal where
  /-- Raised by an arm of `exec` whose instruction has no meaning in the model, named as the opcode table names it.
  No arm of this model raises it. Safe: the model stops. -/
  | notModelled (mnemonic : String)
  deriving DecidableEq, Repr

/-- The complete state of one core (R20), and the words standing at its two ports (R70). -/
structure State where
  /-- K[0] to K[7], 8 x 32 bits (R21). -/
  key : Key
  /-- BUF, 1024 bytes = 256 words (R22). -/
  buf : Memory
  /-- CUR, 16 bits, the offset of the next unread byte of the Output Region (R23). -/
  cur : Half
  /-- SEEDED, 1 bit (R24). -/
  seeded : Bool
  /-- BK, the lane width of the batch kernel, a member of AVAIL (R25, R200). -/
  bk : Backend
  /-- x[0] to x[15] or X[0] to X[15], the transient working registers, each a list of one word per lane (R26, R30). -/
  x : Vector (List Word) 16
  /-- CTR, the transient block counter, 32 bits (R26). -/
  ctr : Word
  /-- The command port: the words the host has offered and the hardware has not yet taken, oldest first (R70; DEDUCED:
  log entry 5). -/
  cmd : List Word
  /-- The response port: the words the hardware has produced and the host has not yet taken, oldest first (R70; DEDUCED:
  log entry 5). -/
  rsp : List Word
  deriving DecidableEq, Repr

/-- The state after a reset that samples BK_SEL = `sel` (R33, R220). SEEDED, BK and the ports are the spec's values; for
K, BUF, CUR, x and CTR the spec says "no value", and the values here are DESIGN CHOICE, unsafe: log entries 1 and
3. -/
def State.resetWith (sel : BkSel) : State where
  key := Vector.replicate 8 0
  buf := []
  cur := 0
  seeded := false
  bk := select sel
  x := Vector.replicate 16 (List.replicate (select sel).val.count 0)
  ctr := 0
  cmd := []
  rsp := []

/-- The machine right after reset, with the strap the configuration gives (R220). -/
def State.reset : State := State.resetWith Config.bkSel

end Sys2Proof.Machine
end

