-- ==== Sys2Proof/Machine/Batch.lean ====
section
/-! DEFINITION. The lanewise operations, the batch kernels, and the buffer layout every fill must produce
(41_batch_kernel.md R130 to R137). The stores of the three fills are in Machine/Fill.lean. -/

namespace Sys2Proof.Machine

/-- A vector register of `L` lanes (R30). -/
abbrev Vec (L : Nat) := Vector Word L

/-- VADD (R130). -/
def vadd {L : Nat} (A B : Vec L) : Vec L := Vector.ofFn fun l => add32 A[l] B[l]

/-- VXOR (R130). -/
def vxor {L : Nat} (A B : Vec L) : Vec L := Vector.ofFn fun l => xor32 A[l] B[l]

/-- VSHL (R130). -/
def vshl {L : Nat} (A : Vec L) (n : Nat) : Vec L := Vector.ofFn fun l => shl32 A[l] n

/-- VSHR (R130). -/
def vshr {L : Nat} (A : Vec L) (n : Nat) : Vec L := Vector.ofFn fun l => shr32 A[l] n

/-- VROTL: the two lanewise shifts, joined (R130). -/
def vrotl {L : Nat} (A : Vec L) (n : Nat) : Vec L :=
  let hi := vshl A n
  let lo := vshr A (32 - n)
  Vector.ofFn fun l => hi[l] ||| lo[l]

/-- VSPLAT (R131). -/
def vsplat (L : Nat) (v : Word) : Vec L := Vector.ofFn fun _ => v

/-- VCTR: consecutive counters, the lowest in lane 0, wrapping modulo 2^32 (R132). -/
def vctr (L : Nat) (ctr0 : Word) : Vec L := Vector.ofFn fun l => add32 ctr0 (BitVec.ofNat 32 l.val)

/-- The vector-operation interface at `L` lanes (R130 to R132). -/
def laneArx (L : Nat) : Arx (Vec L) where
  add := vadd
  xor := vxor
  rotl := vrotl
  splat := vsplat L
  counters := vctr L

/-- KERNEL_L(key, ctr0): the block transform with every register a vector (R134). -/
def kernel (L : Nat) (key : Key) (ctr0 : Word) : Vector (Vec L) 16 := transform (laneArx L) key ctr0

/-- The working registers as State holds them: one list of lane words per register (R26, R30). -/
def laneRegs {L : Nat} (X : Vector (Vec L) 16) : Vector (List Word) 16 := Vector.ofFn fun w => X[w].toList

/-- The 64 words of group `g`: word 0 of its four blocks in counter order, then word 1 of the four, and so on (R136; K4, PRESUMED: log
entry 11). -/
def groupWords (key : Key) (g : Nat) : List Word :=
  let blocks := (List.range 4).map fun l => block key (BitVec.ofNat 32 (4 * g + l))
  (List.finRange 16).flatMap fun w => blocks.map fun b => b[w]

/-- The 256 words every fill with `key` leaves: BUF[64g + 4w + l] = BLOCK(key, 4g + l)[w] (R136, R137). -/
def fillWords (key : Key) : List Word := (List.range 4).flatMap (groupWords key)

/-- The buffer after a fill with `key` (R136). Irreducible, so that no proof unfolds 16 blocks by accident: cite its
lemmas, or unfold it by name. -/
@[irreducible] def fillBuf (key : Key) : Memory := Memory.ofWords (fillWords key)

/-- The counter of the last kernel run of a fill: the runs go in counter order, one block, one group or two groups at a
time (R27, R138 to R140). -/
def lastCtr : Lanes → Word
  | .one => 15
  | .four => 12
  | .eight => 8

/-- The working registers as the last kernel run of a fill leaves them. They are transient: no rule reads them (R26, R30;
DESIGN CHOICE, unsafe: log entry 4). Irreducible for the same reason as `fillBuf`. -/
@[irreducible] def lastRegs (L : Lanes) (key : Key) : Vector (List Word) 16 := laneRegs (kernel L.count key (lastCtr L))

end Sys2Proof.Machine
end

