-- ==== Sys2Proof/Machine/Flags.lean ====
section
/-! DEFINITION. The hardware has no flags and no condition codes (10_state.md R28): no operation records a carry, an
overflow, a zero or a sign. What tells a command's outcome is the status of its response, which stands here
(60_exceptions.md R190, 30_encoding.md R76). -/

namespace Sys2Proof.Machine

/-- The four statuses of a response: OK and the three synchronous errors (R190). -/
inductive Status where
  | ok
  | invalidSnapshot
  | illegalCommand
  | unseeded
  deriving DecidableEq, Repr

/-- The code of a status in field STATUS (R76, R190). -/
def Status.code : Status → Byte
  | .ok => 0x00
  | .invalidSnapshot => 0x01
  | .illegalCommand => 0x02
  | .unseeded => 0x03

/-- The status word: RLEN in bits [31:8], STATUS in bits [7:0] (R76; a length no command word carries: log entry 13). -/
def statusWord (st : Status) (rlen : Nat) : Word := BitVec.ofNat 32 (256 * rlen + st.code.toNat)

end Sys2Proof.Machine
end

