-- ==== Sys2Proof/Machine/Ops.lean ====
section
/-! DEFINITION. The shared operations of the commands: buffer accesses, responses, raising an error and returning from a
command, FILL, SEED_FILL, REFILL, and the two ways of reading (20_memory.md R52, 42_stream_engine.md R151, R152, R154 to
R156, 60_exceptions.md R190 to R198). -/

namespace Sys2Proof.Machine

/-- MemRead(addr, n) (R52). -/
def memRead (m : Memory) (addr n : Nat) : Except Fault (List Byte) :=
  if addr + n ≤ bufBytes then .ok (m.readBytes addr n) else .error (.outsideBuffer addr n)

/-- MemWrite(addr, n, s) (R52). -/
def memWrite (m : Memory) (addr : Nat) (bs : List Byte) : Except Fault Memory :=
  if addr + bs.length ≤ bufBytes then .ok (m.writeBytes addr bs) else .error (.outsideBuffer addr bs.length)

/-- TAKING AN EXCEPTION: an error of a command. The response is the status word alone, with RLEN 0; no other state
changes, nothing is saved, masked or latched, and control goes nowhere (R10, R76, R194, R196). -/
def raise (st : Status) (s : State) : State := { s with rsp := s.rsp ++ [statusWord st 0] }

/-- RETURNING from a command with status OK and the result bytes: the status word, then the packed bytes (R10, R76, R77).
There is no return-from-error instruction: after either kind of response the next command is executed normally (R198). -/
def respond (bytes : List Byte) (s : State) : State :=
  { s with rsp := s.rsp ++ statusWord .ok bytes.length :: packWords bytes }

/-- The outcome of a command body. -/
def finish : Except Fault State → Host.Outcome State Fault Refusal
  | .ok s => .next s
  | .error f => .fault f

/-- The check that stands before the body of every command that reads K, BUF or CUR: Unseeded if SEEDED = 0 (R150, R193). -/
def whenSeeded (s : State) (body : Except Fault State) : Host.Outcome State Fault Refusal :=
  if s.seeded = true then finish body else .next (raise .unseeded s)

/-- FILL(key): all 256 words of BUF by the layout of R136, whatever BK (R137, R141, R142), and what the kernel runs of
backend BK leave in the transient registers. `fillBackend` in Machine/Fill.lean gives the stores of each backend. -/
def fill (key : Key) (s : State) : State :=
  { s with buf := fillBuf key, x := lastRegs s.bk.val key, ctr := lastCtr s.bk.val }

/-- SEED_FILL(key): the seed itself is the key of the first buffer (R151). -/
def seedFill (key : Key) (s : State) : State :=
  { fill key { s with key := key } with cur := 0, seeded := true }

/-- The NextKey Region as key words, K[j] = BUF[248 + j] (R51 (iv), R152). -/
def nextKey (m : Memory) : Key := Vector.ofFn fun j : Fin 8 => m.readWord (nextKeyWord + j.val)

/-- REFILL: the NextKey Region becomes the key before any buffer word is written, then the fill, then CUR = 0 (R152,
R225). -/
def refill (s : State) : State :=
  let key := nextKey s.buf
  { fill key { s with key := key } with cur := 0 }

/-- `992 - CUR`, the unread bytes of the Output Region; the spec gives the difference no meaning above 992 (R112). -/
def outputLeft (s : State) : Except Fault Nat :=
  if s.cur.toNat ≤ outBytes then .ok (outBytes - s.cur.toNat) else .error (.cursorOutOfRange s.cur)

/-- CUR <- CUR + n (R165). -/
def advance (n : Nat) (s : State) : State := { s with cur := s.cur + BitVec.ofNat 16 n }

/-- MemRead(CUR, n), then CUR <- CUR + n: the one effective address of the hardware (R165). -/
def readAtCursor (n : Nat) (s : State) : Except Fault (List Byte × State) :=
  match memRead s.buf s.cur.toNat n with
  | .ok bytes => .ok (bytes, advance n s)
  | .error f => .error f

/-- A word read of `n` bytes: if fewer remain before the Output Region's end, refill first and lose the tail (R154, R155,
R157). -/
def readWhole (n : Nat) (s : State) : Except Fault (List Byte × State) :=
  match outputLeft s with
  | .ok left => readAtCursor n (if left < n then refill s else s)
  | .error f => .error f

/-- One pass of READ_BYTES' loop with `n > 0` bytes wanted: refill if CUR = 992, then the chunk of
`min(n, 992 - CUR)` bytes (R156). -/
def readChunk (n : Nat) (s : State) : Except Fault (List Byte × State) :=
  match outputLeft s with
  | .ok left =>
    let t := if left = 0 then refill s else s
    readAtCursor (min n (outBytes - t.cur.toNat)) t
  | .error f => .error f

/-- READ_BYTES' loop while `n > 0`, for at most `fuel` passes; a pass reads at least one byte, so `fuel = n` passes are
enough (R156, R164). -/
def readLoop : Nat → Nat → State → Except Fault (List Byte × State)
  | 0, _, s => .ok ([], s)
  | fuel + 1, n, s =>
    if n = 0 then .ok ([], s)
    else
      match readChunk n s with
      | .ok (bytes, t) =>
        match readLoop fuel (n - bytes.length) t with
        | .ok (more, u) => .ok (bytes ++ more, u)
        | .error f => .error f
      | .error f => .error f

/-- The next `n` bytes of the stream (R156). -/
def readOut (n : Nat) (s : State) : Except Fault (List Byte × State) := readLoop n n s

/-- The response to a read: the bytes read, after the reading has changed the state. -/
def respondRead : Except Fault (List Byte × State) → Except Fault State
  | .ok (bytes, s) => .ok (respond bytes s)
  | .error f => .error f

end Sys2Proof.Machine
end

