-- ==== Sys2Proof/Machine/Snapshot.lean ====
section
/-! DEFINITION. The two snapshot commands (43_snapshot.md R180 to R184). -/

namespace Sys2Proof.Machine

/-- The reported bytes_consumed: CUR, clamped to the Output Region's length (R180). -/
def snapshotCount (s : State) : Nat := min s.cur.toNat outBytes

/-- CLONE_STATE (R180): the 32 bytes of K, then the count as a 32-bit little-endian word; nothing is written. -/
def execCloneState (s : State) : Host.Outcome State Fault Refusal :=
  whenSeeded s (.ok (respond (bytesOfKey s.key ++ bytes32 (BitVec.ofNat 32 (snapshotCount s))) s))

/-- TRY_RESTORE_STATE (R181): the count is validated, unsigned and untruncated, before any state is written. -/
def execTryRestoreState (seed : Key) (bytesConsumed : Word) (s : State) : Host.Outcome State Fault Refusal :=
  if outBytes < bytesConsumed.toNat then .next (raise .invalidSnapshot s)
  else .next (respond [] { seedFill seed s with cur := bytesConsumed.setWidth 16 })

end Sys2Proof.Machine
end

