-- ==== Sys2Proof/Machine/Stream.lean ====
section
/-! DEFINITION. The commands of the stream engine (42_stream_engine.md R153 to R158). -/

namespace Sys2Proof.Machine

/-- SET_SEED (R153): no check of SEEDED, no ratchet. -/
def execSetSeed (seed : Key) (s : State) : Host.Outcome State Fault Refusal :=
  .next (respond [] (seedFill seed s))

/-- READ_U32 (R154). -/
def execReadU32 (s : State) : Host.Outcome State Fault Refusal :=
  whenSeeded s <|
    match readWhole 4 s with
    | .ok (bytes, t) => .ok (respond (bytes32 (le32 bytes)) t)
    | .error f => .error f

/-- READ_U64 (R155). -/
def execReadU64 (s : State) : Host.Outcome State Fault Refusal :=
  whenSeeded s <|
    match readWhole 8 s with
    | .ok (bytes, t) => .ok (respond (bytes64 (le64 bytes)) t)
    | .error f => .error f

/-- READ_BYTES (R156): Unseeded also when len = 0 (R193). -/
def execReadBytes (len : Nat) (s : State) : Host.Outcome State Fault Refusal :=
  whenSeeded s (respondRead (readOut len s))

/-- READ_SEED (R158): the 32 next bytes of the stream. -/
def execReadSeed (s : State) : Host.Outcome State Fault Refusal :=
  whenSeeded s (respondRead (readOut 32 s))

end Sys2Proof.Machine
end

