-- ==== Sys2Proof/Syntax.lean ====
section
/-! DEFINITION. The host commands, one constructor per row of spec/opcode_table.json (00_scope.md R12,
30_encoding.md R72). The internal operations of R12 have no encoding and are functions of the machine. -/

namespace Sys2Proof

/-- A host command with its operands (R72). Payloads have their fixed sizes in their types, since "the format has
exactly 8 words and no length field" (R73). -/
inductive Instr where
  /-- SET_SEED, payload PS: the seed as 8 key words (R73, R153). -/
  | setSeed (seed : Key)
  /-- READ_U32 (R154). -/
  | readU32
  /-- READ_U64 (R155). -/
  | readU64
  /-- READ_BYTES with its byte count (R75, R156); the well-formed counts are those of 24 bits (DESIGN CHOICE: log entry 13). -/
  | readBytes (len : Nat)
  /-- READ_SEED (R158). -/
  | readSeed
  /-- CLONE_STATE (R180). -/
  | cloneState
  /-- TRY_RESTORE_STATE, payload PR: the snapshot's seed, and bytes_consumed as the full 32-bit word (R74, R181). -/
  | tryRestoreState (seed : Key) (bytesConsumed : Word)
  deriving DecidableEq, Repr

end Sys2Proof
end

