-- ==== Sys2Proof/Machine/Dispatch.lean ====
section
/-! DEFINITION. One arm per host command (30_encoding.md R72). -/

namespace Sys2Proof.Machine

def exec (i : Instr) (s : State) : Host.Outcome State Fault Refusal :=
  match i with
  | .setSeed seed => Sys2Proof.Machine.execSetSeed seed s
  | .readU32 => Sys2Proof.Machine.execReadU32 s
  | .readU64 => Sys2Proof.Machine.execReadU64 s
  | .readBytes len => Sys2Proof.Machine.execReadBytes len s
  | .readSeed => Sys2Proof.Machine.execReadSeed s
  | .cloneState => Sys2Proof.Machine.execCloneState s
  | .tryRestoreState seed bytesConsumed => Sys2Proof.Machine.execTryRestoreState seed bytesConsumed s

end Sys2Proof.Machine
end

