-- ==== Sys2Proof/WellFormed.lean ====
section
/-! DEFINITION. Well-formed commands. The one operand a term can hold that no command word can carry is a READ_BYTES
length above LEN_MAX (00_scope.md R5, 30_encoding.md R72, R82 (ii)); every seed and every snapshot word is legal
(R73, R74). -/

namespace Sys2Proof

/-- LEN_MAX, the largest length of one READ_BYTES: 2^24 - 1 (R5, decision D11). -/
def lenMax : Nat := 16777215

/-- The check on a command's operands: a READ_BYTES length fits the 24-bit ARG field (R72). -/
def Instr.wf : Instr → Bool
  | .setSeed _ => true
  | .readU32 => true
  | .readU64 => true
  | .readBytes len => decide (len ≤ lenMax)
  | .readSeed => true
  | .cloneState => true
  | .tryRestoreState _ _ => true

end Sys2Proof
end

