-- ==== Sys2Proof/Decode.lean ====
section
/-! DEFINITION. The decoder of the command port, total on every list of port words, and after it the encoder
(30_encoding.md R71 to R75, R78 to R80). -/

namespace Sys2Proof

/-- Why a command word is no command (R79 (i) and (ii)). -/
inductive Illegal where
  /-- OPC is 0x00 or 0x08 to 0xFF. -/
  | reservedOpcode (opc : Byte)
  /-- ARG is not 0 on an opcode other than READ_BYTES. -/
  | nonzeroArg (opc : Byte) (arg : BitVec 24)
  deriving DecidableEq, Repr

/-- What a command word alone says: the command, before its payload (R78). -/
inductive Head where
  | setSeed
  | readU32
  | readU64
  | readBytes (len : Nat)
  | readSeed
  | cloneState
  | tryRestoreState
  deriving DecidableEq, Repr

/-- Field OPC of a command word, bits [7:0] (R71). -/
def opcField (cw : Word) : Byte := cw.extractLsb' 0 8

/-- Field ARG of a command word, bits [31:8] (R71). -/
def argField (cw : Word) : BitVec 24 := cw.extractLsb' 8 24

/-- The command `h` if ARG is 0; otherwise the word is illegal (R78, R79 (ii)). -/
def requireZeroArg (cw : Word) (h : Head) : Except Illegal Head :=
  if argField cw = 0 then .ok h else .error (.nonzeroArg (opcField cw) (argField cw))

/-- The decoding of a command word (R72, R78): total, from the word alone (R80). -/
def decodeHead (cw : Word) : Except Illegal Head :=
  match (opcField cw).toNat with
  | 1 => requireZeroArg cw .setSeed
  | 2 => requireZeroArg cw .readU32
  | 3 => requireZeroArg cw .readU64
  | 4 => .ok (.readBytes (argField cw).toNat)
  | 5 => requireZeroArg cw .readSeed
  | 6 => requireZeroArg cw .cloneState
  | 7 => requireZeroArg cw .tryRestoreState
  | _ => .error (.reservedOpcode (opcField cw))

/-- How many payload words follow the command word (R72: total words less one). -/
def payloadWords : Head → Nat
  | .setSeed => 8
  | .tryRestoreState => 9
  | .readU32 => 0
  | .readU64 => 0
  | .readBytes _ => 0
  | .readSeed => 0
  | .cloneState => 0

/-- The length of a command in words, fixed by its command word alone; 1 for an illegal word (R78). -/
def commandLength (cw : Word) : Nat :=
  match decodeHead cw with
  | .ok h => 1 + payloadWords h
  | .error _ => 1

/-- What stands at the head of the command port. -/
inductive Decoded where
  /-- A whole command, and the words behind it. -/
  | command (i : Instr) (rest : List Word)
  /-- A word that is no command, and the words behind it: exactly one word is taken (R79). -/
  | illegal (why : Illegal) (rest : List Word)
  /-- No command word, or a command whose payload is not complete (R229). -/
  | incomplete
  deriving DecidableEq, Repr

/-- Takes the 8 words of format PS (R73). -/
def takeKey : List Word → Option (Key × List Word)
  | p0 :: p1 :: p2 :: p3 :: p4 :: p5 :: p6 :: p7 :: rest => some (#v[p0, p1, p2, p3, p4, p5, p6, p7], rest)
  | _ => none

/-- Takes the 9 words of format PR: the seed, then the count word (R74). -/
def takeSnapshot : List Word → Option ((Key × Word) × List Word)
  | p0 :: p1 :: p2 :: p3 :: p4 :: p5 :: p6 :: p7 :: p8 :: rest =>
      some ((#v[p0, p1, p2, p3, p4, p5, p6, p7], p8), rest)
  | _ => none

/-- The command that `h` begins, with its payload taken from the words behind it (R73, R74, R75). -/
def decodePayload (h : Head) (ws : List Word) : Decoded :=
  match h with
  | .setSeed =>
    match takeKey ws with
    | some (k, rest) => .command (.setSeed k) rest
    | none => .incomplete
  | .readU32 => .command .readU32 ws
  | .readU64 => .command .readU64 ws
  | .readBytes len => .command (.readBytes len) ws
  | .readSeed => .command .readSeed ws
  | .cloneState => .command .cloneState ws
  | .tryRestoreState =>
    match takeSnapshot ws with
    | some ((k, bc), rest) => .command (.tryRestoreState k bc) rest
    | none => .incomplete

/-- The decoder of the command port (R78): a command, an illegal word rejected by name, or nothing whole yet. -/
def decode : List Word → Decoded
  | [] => .incomplete
  | cw :: ws =>
    match decodeHead cw with
    | .ok h => decodePayload h ws
    | .error why => .illegal why ws

/-- A command word from its two fields, OPC in bits [7:0] and ARG in bits [31:8] (R71). -/
def commandWord (opc : Byte) (arg : BitVec 24) : Word := BitVec.ofNat 32 (256 * arg.toNat + opc.toNat)

/-- The port words of a command (R72 to R74). -/
def encode : Instr → List Word
  | .setSeed k => commandWord 0x01 0 :: k.toList
  | .readU32 => [commandWord 0x02 0]
  | .readU64 => [commandWord 0x03 0]
  | .readBytes len => [commandWord 0x04 (BitVec.ofNat 24 len)]
  | .readSeed => [commandWord 0x05 0]
  | .cloneState => [commandWord 0x06 0]
  | .tryRestoreState k bc => commandWord 0x07 0 :: (k.toList ++ [bc])

/-- The 10 port words (the longest command, R72) that the low `nbits` bits of `w` spell, bit 0 being the least
significant bit of the first word; every bit above `nbits` is 0. -/
def tableWords (nbits w : Nat) : List Word :=
  (List.range 10).map fun i => BitVec.ofNat 32 ((w % 2 ^ nbits) >>> (32 * i))

/-- The words of `tableWords` that belong to the first command they spell (R78). -/
def tableCommand (nbits w : Nat) : List Word :=
  match tableWords nbits w with
  | [] => []
  | cw :: ws => (cw :: ws).take (commandLength cw)

/-- The instruction the decoder reads from a row's bits, numbered as spec/opcode_table.json numbers them. -/
def decodeTableWord (nbits w : Nat) : Option Instr :=
  match decode (tableWords nbits w) with
  | .command i _ => some i
  | .illegal _ _ => none
  | .incomplete => none

end Sys2Proof
end

