-- ==== Sys2Proof/Machine/Fetch.lean ====
section
/-! DEFINITION. Taking a command from the command port (30_encoding.md R70, R78; 70_reset_and_hazards.md R229, R230). The
hardware has no program counter (10_state.md R27): the next command is the one at the head of the port. That it waits while a
response word is not taken is DEDUCED, log entry 5. -/

namespace Sys2Proof.Machine

/-- What the hardware finds at its ports when it looks for a command. -/
inductive Fetched where
  /-- It waits: the last response is not taken, or no whole command is offered (R229, R230). -/
  | wait
  /-- A whole command, with the state after its words are taken. -/
  | command (i : Instr) (s : State)
  /-- An illegal word, with the state after that one word is taken (R79). -/
  | illegal (why : Illegal) (s : State)
  deriving DecidableEq, Repr

/-- The next command: only when the whole response to the previous one has been taken (R58, R70, R230), and only with all
its payload words (R78, R229). -/
def fetch (s : State) : Fetched :=
  match s.rsp with
  | [] =>
    match decode s.cmd with
    | .command i rest => .command i { s with cmd := rest }
    | .illegal why rest => .illegal why { s with cmd := rest }
    | .incomplete => .wait
  | _ :: _ => .wait

/-- The state with one command, and nothing else, offered on the command port, and with an empty response port, so that the
next fetch takes exactly that command. -/
def placeCommand (words : List Word) (s : State) : State := { s with cmd := words, rsp := [] }

end Sys2Proof.Machine
end

