-- ==== Sys2Proof/Machine/Step.lean ====
section
/-! DEFINITION. One step of the hardware: one whole command, or waiting (20_memory.md R56, R58). -/

namespace Sys2Proof.Machine

/-- One step: the next command is executed whole; an illegal word raises IllegalCommand before anything else is looked at
(R192, R195); and where there is no command to take the hardware waits with its state unchanged (R229, R230). -/
def step (s : State) : Host.Outcome State Fault Refusal :=
  match fetch s with
  | .wait => .next s
  | .command i t => exec i t
  | .illegal _ t => .next (raise .illegalCommand t)

/-- `s` with the instruction of the row bits `w` offered on the command port, so that the next step runs it (DESIGN
CHOICE: log entry 6). -/
def State.withFetchWord (s : State) (nbits w : Nat) : State := placeCommand (tableCommand nbits w) s

end Sys2Proof.Machine
end

