-- ==== Sys2Proof/Machine/Environment.lean ====
section
/-! DEFINITION. What the host does to the machine between its steps (30_encoding.md R70, 70_reset_and_hazards.md R220, R221,
R227 to R230): it offers words on the command port, takes words from the response port, and resets the core (DEDUCED:
log entries 10 and 14). -/

namespace Sys2Proof.Machine

/-- The host offers a word on the command port (R70). -/
def offer (w : Word) (s : State) : State := { s with cmd := s.cmd ++ [w] }

/-- The host takes the oldest word of the response port, if there is one (R70, R230). -/
def takeResponse (s : State) : State := { s with rsp := s.rsp.tail }

/-- Reset, in any state: BK_SEL is sampled, a command in progress is abandoned, the words at both ports are withdrawn
(R220, R221). -/
def resetCore (sel : BkSel) (_ : State) : State := State.resetWith sel

/-- A move of the whole system: a step of the hardware, or one of the host's three. -/
inductive Move where
  | hardware
  | offer (w : Word)
  | take
  | reset (sel : BkSel)
  deriving DecidableEq, Repr

/-- The outcome of one move. -/
def move (m : Move) (s : State) : Host.Outcome State Fault Refusal :=
  match m with
  | .hardware => step s
  | .offer w => .next (offer w s)
  | .take => .next (takeResponse s)
  | .reset sel => .next (resetCore sel s)

/-- Moves one after another, stopping at the first fault or refusal. -/
def moves : List Move → State → Host.Outcome State Fault Refusal
  | [], s => .next s
  | m :: ms, s =>
    match move m s with
    | .next t => moves ms t
    | .fault f => .fault f
    | .refused r => .refused r

/-- The moves of a host that gives one command: its words are offered one by one, and the hardware looks at the port after
each of them (R78, R229). -/
def issueMoves (words : List Word) : List Move := words.flatMap fun w => [Move.offer w, Move.hardware]

/-- Commands executed one after another (R58, R60), without the ports' handshake. -/
def execAll : List Instr → State → Host.Outcome State Fault Refusal
  | [], s => .next s
  | i :: is, s =>
    match exec i s with
    | .next t => execAll is t
    | .fault f => .fault f
    | .refused r => .refused r

end Sys2Proof.Machine
end

