-- ==== Sys2Proof/Machine/Assembler.lean ====
section
/-! DEFINITION. The assembler's view of the commands (30_encoding.md R81, R82): the operand forms of a seed, and the
pseudo-instructions NEW, RESTORE and a READ_BYTES longer than LEN_MAX. The text of R81 is not parsed; its forms are data
here (DESIGN CHOICE: log entry 9). -/

namespace Sys2Proof.Machine

/-- A seed as R81 writes it: 32 bytes (the ASCII form and the hex form), or 8 words. -/
inductive SeedForm where
  | bytes (b : Vector Byte 32)
  | words (w : Key)
  deriving DecidableEq, Repr

/-- The payload words of a seed; both forms are the same 8 words on the port (R73). -/
def SeedForm.key : SeedForm → Key
  | .bytes b => keyOfBytes b
  | .words w => w

/-- A line of assembly: a command of R81 or a pseudo-instruction of R82. -/
inductive Asm where
  | setSeed (seed : SeedForm)
  | readU32
  | readU64
  /-- READ_BYTES of any length; above LEN_MAX it is the pseudo-instruction of R82 (ii). -/
  | readBytes (n : Nat)
  | readSeed
  | cloneState
  | tryRestoreState (seed : SeedForm) (bytesConsumed : Word)
  /-- NEW: a reset, then SET_SEED (R82 (i)). -/
  | new (sel : BkSel) (seed : SeedForm)
  /-- RESTORE of the 9 result words of a CLONE_STATE (R82 (iv)). -/
  | restore (result : Vector Word 9)
  deriving DecidableEq, Repr

/-- What the host does for a line of assembly. -/
inductive HostAct where
  | reset (sel : BkSel)
  | issue (i : Instr)
  deriving DecidableEq, Repr

/-- A length as lengths of single READ_BYTES commands that sum to it (R82 (ii)). -/
def splitLength (n : Nat) : List Nat :=
  if n ≤ lenMax then [n]
  else List.replicate (n / lenMax) lenMax ++ (if n % lenMax = 0 then [] else [n % lenMax])

/-- The expansion of a line (R81, R82). -/
def Asm.expand : Asm → List HostAct
  | .setSeed f => [.issue (.setSeed f.key)]
  | .readU32 => [.issue .readU32]
  | .readU64 => [.issue .readU64]
  | .readBytes n => (splitLength n).map fun l => .issue (.readBytes l)
  | .readSeed => [.issue .readSeed]
  | .cloneState => [.issue .cloneState]
  | .tryRestoreState f bc => [.issue (.tryRestoreState f.key bc)]
  | .new sel f => [.reset sel, .issue (.setSeed f.key)]
  | .restore r => [.issue (.tryRestoreState (Vector.ofFn fun j : Fin 8 => r[j.val]'(by omega)) r[8])]

/-- The moves of one host act: a reset, or the words of a command offered on the port (R70). -/
def HostAct.moves : HostAct → List Move
  | .reset sel => [.reset sel]
  | .issue i => issueMoves (encode i)

end Sys2Proof.Machine
end

