-- ==== Sys2Proof/Machine/Cores.lean ====
section
/-! DEFINITION. Several cores (60_exceptions.md R204): each is one engine with its own state and ports, and they share
nothing; a system of cores is the product of its members (DESIGN CHOICE: log entry 12). -/

namespace Sys2Proof.Machine

/-- A system of cores. Each has its own BK, and all have the one AVAIL of `Config.avail`, where the spec leaves open
whether their AVAIL may differ (R5, R144, R204; DESIGN CHOICE, unsafe: log entry 15). -/
abbrev Cores := List State

/-- A move at core `c`: that core's state takes it, or the whole stops; a core that is not there is left alone. -/
def moveAt (c : Nat) (m : Move) (cs : Cores) : Host.Outcome Cores Fault Refusal :=
  match cs[c]? with
  | none => .next cs
  | some s =>
    match move m s with
    | .next t => .next (cs.set c t)
    | .fault f => .fault f
    | .refused r => .refused r

end Sys2Proof.Machine
end

