-- ==== Sys2Proof/Machine/Fill.lean ====
section
/-! DEFINITION. The three fills store by store (41_batch_kernel.md R133, R138 to R141). Machine/Ops.lean's `fill` states
the engine over the layout of R136, as R142 asks (DEDUCED, log entry 8); that each of these leaves the same is a statement
about both. -/

namespace Sys2Proof.Machine

/-- VSTORE(i, V): lane l of V goes to BUF[i + l], for one lane or four (R133). -/
def vstore (i : Nat) (lanes : List Word) (s : State) : Except Fault State :=
  match memWrite s.buf (4 * i) (bytesOfWords lanes) with
  | .ok m => .ok { s with buf := m }
  | .error f => .error f

/-- One kernel run: CTR is set, then KERNEL_L leaves its result in the working registers (R26, R30, R134). -/
def runKernel (L : Nat) (key : Key) (ctr0 : Word) (s : State) : State :=
  { s with ctr := ctr0, x := laneRegs (kernel L key ctr0) }

/-- A store for each of the 16 working registers in turn. -/
def storeRows (store : Fin 16 → State → Except Fault State) (s : State) : Except Fault State :=
  (List.finRange 16).foldlM (fun t w => store w t) s

/-- FILL_1(key): block c goes word by word to words 64(c div 4) + 4w + (c mod 4) (R138). -/
def fill1 (key : Key) (s : State) : Except Fault State :=
  (List.range 16).foldlM (init := s) fun t c =>
    storeRows (fun w u => vstore (64 * (c / 4) + 4 * w.val + c % 4) u.x[w] u) (runKernel 1 key (BitVec.ofNat 32 c) t)

/-- FILL_4(key): one kernel run makes group g, each vector one row of it (R139). -/
def fill4 (key : Key) (s : State) : Except Fault State :=
  (List.range 4).foldlM (init := s) fun t g =>
    storeRows (fun w u => vstore (64 * g + 4 * w.val) u.x[w] u) (runKernel 4 key (BitVec.ofNat 32 (4 * g)) t)

/-- FILL_8(key): one kernel run makes groups 2h and 2h + 1, from the low and the high half of each vector (R140). -/
def fill8 (key : Key) (s : State) : Except Fault State :=
  (List.range 2).foldlM (init := s) fun t h =>
    storeRows
      (fun w u => do
        let v ← vstore (64 * (2 * h) + 4 * w.val) (u.x[w].take 4) u
        vstore (64 * (2 * h + 1) + 4 * w.val) (u.x[w].drop 4) v)
      (runKernel 8 key (BitVec.ofNat 32 (8 * h)) t)

/-- FILL(key) by the fill of one backend (R141). -/
def fillBackend (L : Lanes) (key : Key) (s : State) : Except Fault State :=
  match L with
  | .one => fill1 key s
  | .four => fill4 key s
  | .eight => fill8 key s

end Sys2Proof.Machine
end

