-- ==== Sys2Proof/Safety.lean ====
section
/-! DEFINITION. What a good state is, and the terms the claims about runs use: the logical states (10_state.md R31), the
invariant (R32), engines that cannot be told apart (R36), the canonical byte stream (42_stream_engine.md R159), and the
number of refills of a command (R156, R166). -/

namespace Sys2Proof.Machine

/-- The logical states of R31. -/
inductive Logical where
  | unseeded
  | serving
  | needsRefill
  deriving DecidableEq, Repr

/-- The logical state: a name for ranges of CUR, not extra state (R31). -/
def State.logical (s : State) : Logical :=
  if s.seeded = false then .unseeded else if s.cur.toNat < 992 then .serving else .needsRefill

/-- The invariant at every command boundary. While SEEDED = 1, CUR is at most 992 and BUF = FILL(K) (R32); always, the
buffer's list is in its canonical form, and a working register has one word per lane of BK (R30). -/
structure Good (s : State) : Prop where
  /-- The buffer is in its canonical form. -/
  buf_wf : s.buf.wf = true
  /-- R32 (i). -/
  cur_le : s.seeded = true → s.cur.toNat ≤ 992
  /-- R32 (ii). -/
  buf_fill : s.seeded = true → s.buf = fillBuf s.key
  /-- Every working register holds one word per lane (R26, R30). -/
  lanes : ∀ w : Fin 16, s.x[w].length = s.bk.val.count

/-- Two cores that hold the same SEEDED, K, BUF and CUR, whatever their backends, transient registers and ports (R36);
the backends are members of the one AVAIL (log entry 15). -/
def SameEngine (s t : State) : Prop :=
  s.seeded = t.seeded ∧ s.key = t.key ∧ s.buf = t.buf ∧ s.cur = t.cur

/-- The key of the next iteration: words 248 to 255 of the buffer a fill with `key` leaves (R159). -/
def ratchet (key : Key) : Key := nextKey (fillBuf key)

/-- `key_i` of R159, counted from `key`. -/
def ratchetTimes : Nat → Key → Key
  | 0, key => key
  | n + 1, key => ratchetTimes n (ratchet key)

/-- Byte `p` of the canonical byte stream of a seed: byte `p mod 992` of iteration `p div 992` (R159). -/
def streamByte (key : Key) (p : Nat) : Byte := (fillBuf (ratchetTimes (p / 992) key)).readByte (p % 992)

/-- `n` bytes of the canonical byte stream from position `p` on (R159). -/
def streamBytes (key : Key) (p n : Nat) : List Byte := (List.range n).map fun i => streamByte key (p + i)

/-- How many refills a READ_BYTES of `len` bytes makes from cursor `c` (R156). -/
def refillCount (c len : Nat) : Nat := if len ≤ 992 - c then 0 else (len - (992 - c) + 991) / 992

/-- Where a READ_BYTES of `len` bytes from cursor `c` leaves the cursor (R156). -/
def cursorAfter (c len : Nat) : Nat :=
  if len ≤ 992 - c then c + len else (len - (992 - c) - 1) % 992 + 1

/-- How many fills a command performs: a function of its opcode, its length or count, SEEDED and the cursor (R166). -/
def fillCount (i : Instr) (s : State) : Nat :=
  match i with
  | .setSeed _ => 1
  | .readU32 => if s.seeded = true ∧ 992 - s.cur.toNat < 4 then 1 else 0
  | .readU64 => if s.seeded = true ∧ 992 - s.cur.toNat < 8 then 1 else 0
  | .readBytes len => if s.seeded = true then refillCount s.cur.toNat len else 0
  | .readSeed => if s.seeded = true then refillCount s.cur.toNat 32 else 0
  | .cloneState => 0
  | .tryRestoreState _ bc => if bc.toNat ≤ 992 then 1 else 0

/-- Successive byte reads: the outputs joined, and the state after the last (R160). -/
def readAll : List Nat → State → Except Fault (List Byte × State)
  | [], s => .ok ([], s)
  | n :: ns, s =>
    match readOut n s with
    | .ok (bytes, t) =>
      match readAll ns t with
      | .ok (more, u) => .ok (bytes ++ more, u)
      | .error f => .error f
    | .error f => .error f

/-- The response words that carry the successive segments, of the given lengths, of the canonical byte stream of `key` from
position `p` on (R159, R77). -/
def segmentResponses (key : Key) : Nat → List Nat → List Word
  | _, [] => []
  | p, n :: ns => statusWord .ok n :: packWords (streamBytes key p n) ++ segmentResponses key (p + n) ns

/-- The number of result bytes a command returns with OK (R77). -/
def resultLength : Instr → Nat
  | .setSeed _ => 0
  | .readU32 => 4
  | .readU64 => 8
  | .readBytes len => len
  | .readSeed => 32
  | .cloneState => 36
  | .tryRestoreState _ _ => 0

/-- A command with its seed words blanked: its opcode, length and count, which the control path may depend on (R231). -/
def publicPart : Instr → Instr
  | .setSeed _ => .setSeed (Vector.replicate 8 0)
  | .readU32 => .readU32
  | .readU64 => .readU64
  | .readBytes len => .readBytes len
  | .readSeed => .readSeed
  | .cloneState => .cloneState
  | .tryRestoreState _ bc => .tryRestoreState (Vector.replicate 8 0) bc

/-- The read commands, which consume the stream. -/
def isRead : Instr → Bool
  | .readU32 => true
  | .readU64 => true
  | .readBytes _ => true
  | .readSeed => true
  | .setSeed _ => false
  | .cloneState => false
  | .tryRestoreState _ _ => false

end Sys2Proof.Machine
end

