-- ==== Sys2Proof/Certificates/Slice0/Obligations.lean ====
section
/-! DEFINITION. The statements for the provers: each one's docstring names the rule of spec/ it formalises, or says what it
rests on. -/

open Sys2Proof Sys2Proof.Machine

/-! ### Reset, runs and the invariant -/

/-- R33, R220, R221: a reset, in any state, leaves SEEDED = 0, BK selected from the strap and both ports empty, and
the hardware then waits for a command word. The values the model gives K, BUF, CUR, x and CTR are not claimed (log
entries 1, 3). -/
def Obligations.ResetLeavesUnseededIdleCore : Prop :=
  (∀ sel s, move (.reset sel) s = .next (State.resetWith sel)) ∧
  (∀ sel, (State.resetWith sel).seeded = false ∧ (State.resetWith sel).bk = select sel ∧ (State.resetWith sel).cmd = [] ∧
    (State.resetWith sel).rsp = [] ∧ (State.resetWith sel).logical = .unseeded ∧
    step (State.resetWith sel) = .next (State.resetWith sel)) ∧
  State.reset = State.resetWith Config.bkSel

/-- The state after reset, under every strap, meets the invariant. It holds of SEEDED = 0 whatever the values log
entries 1 and 3 give K, BUF's bytes and CUR; the clauses on the buffer's list and on the working registers are the
model's (log entries 3 and 4). -/
def Obligations.ResetMeetsInvariant : Prop := ∀ sel, Good (State.resetWith sel)

/-- R32 as an invariant of the step, from every state that has it, reached or not: CUR stays at most 992 and BUF stays
FILL(K) while SEEDED = 1, the buffer stays canonical, and every working register keeps one word per lane. BUF =
FILL(K) is what R32 (ii) marks "[derived: from 42_stream_engine.md rule R151 and 42_stream_engine.md rule R152]"; the
canonical form is the model's (log entry 3). -/
def Obligations.StepKeepsInvariant : Prop := ∀ s t, Good s → step s = .next t → Good t

/-- R32 (its second clause marked "derived") and R201 over every run: whatever words the host offers, whenever it
takes words or resets, from reset the machine never faults or refuses, and every state it comes to meets the
invariant. -/
def Obligations.EveryRunKeepsInvariant : Prop := ∀ ms, ∃ t, moves ms State.reset = .next t ∧ Good t

/-- R201, R150: no step of a state that meets the invariant faults or refuses. -/
def Obligations.StepNeverStops : Prop := ∀ s, Good s → ∃ t, step s = .next t

/-- R24, R25, R220: no step writes BK and no step clears SEEDED; the host's offering and taking of words write
neither. -/
def Obligations.OnlyResetWritesBackend : Prop :=
  (∀ s t, step s = .next t → t.bk = s.bk ∧ (s.seeded = true → t.seeded = true)) ∧
  (∀ w s, (offer w s).bk = s.bk ∧ (offer w s).seeded = s.seeded) ∧
  (∀ s, (takeResponse s).bk = s.bk ∧ (takeResponse s).seeded = s.seeded)

/-- R31: a command leaves the core UNSEEDED exactly if it was UNSEEDED and the command performed no fill, and in
NEEDS_REFILL exactly if it is seeded with CUR = 992. -/
def Obligations.LogicalStateTransitions : Prop :=
  ∀ i s t, Good s → exec i s = .next t →
    (t.logical = .unseeded ↔ s.logical = .unseeded ∧ fillCount i s = 0) ∧
    (t.logical = .needsRefill ↔ t.seeded = true ∧ t.cur = 992)

/-! ### Decoding, encoding and the ports -/

/-- Decoding the words of a well-formed command, with anything behind them, gives that command back. -/
def Obligations.DecodeEncode : Prop :=
  ∀ i rest, i.wf = true → decode (encode i ++ rest) = .command i rest

/-- Every list of words that decodes to a command is that command's own words, and the command is well-formed: each
command has one spelling (R72, R78). -/
def Obligations.DecodedCommandHasOneSpelling : Prop :=
  ∀ ws i rest, decode ws = .command i rest → i.wf = true ∧ ws = encode i ++ rest

/-- R78: the length of a command is fixed by its command word alone: 9 words for SET_SEED, 10 for TRY_RESTORE_STATE, 1
for everything else, an illegal word included. -/
def Obligations.CommandLengthFromWord : Prop :=
  ∀ cw : Word, commandLength cw = if cw = 0x00000001 then 9 else if cw = 0x00000007 then 10 else 1

/-- Words written out from the tables of R72 decode to the commands they stand for. -/
def Obligations.TableWordsDecode : Prop :=
  decode [0x00000001, 1, 2, 3, 4, 5, 6, 7, 8] = .command (.setSeed #v[1, 2, 3, 4, 5, 6, 7, 8]) [] ∧
  decode [0x00000002] = .command .readU32 [] ∧
  decode [0x00000003] = .command .readU64 [] ∧
  decode [0x0003dd04] = .command (.readBytes 989) [] ∧
  decode [0x00000005] = .command .readSeed [] ∧
  decode [0x00000006] = .command .cloneState [] ∧
  decode [0x00000007, 1, 2, 3, 4, 5, 6, 7, 8, 993] = .command (.tryRestoreState #v[1, 2, 3, 4, 5, 6, 7, 8] 993) []

/-- R192, R195: a command word whose OPC (low byte) is 0x00 or 0x08 to 0xFF, or whose ARG (upper 24 bits) is not 0 on
an opcode other than READ_BYTES, makes the hardware take that one word and answer with status word 0x00000002,
whatever its state; nothing else changes; and no other command word is illegal. -/
def Obligations.IllegalWordRaises : Prop :=
  ∀ (s : State) (cw : Word) (ws : List Word), s.rsp = [] → s.cmd = cw :: ws →
    ((cw.toNat % 256 = 0 ∨ 8 ≤ cw.toNat % 256 ∨ (cw.toNat % 256 ≠ 4 ∧ cw.toNat / 256 ≠ 0)) →
      step s = .next { s with cmd := ws, rsp := [0x00000002] }) ∧
    (¬ (cw.toNat % 256 = 0 ∨ 8 ≤ cw.toNat % 256 ∨ (cw.toNat % 256 ≠ 4 ∧ cw.toNat / 256 ≠ 0)) →
      ∀ why rest, decode (cw :: ws) ≠ .illegal why rest)

/-- A step runs the decoded command: with the last response taken and a whole command at the head of the command port,
the step is `exec` of it, its words taken from the port (R58, R70). -/
def Obligations.StepRunsDecodedCommand : Prop :=
  ∀ s i rest, s.rsp = [] → decode s.cmd = .command i rest → step s = exec i { s with cmd := rest }

/-- R229: while only a proper part of a command's words has been offered, the hardware waits with its state unchanged
and produces no response. -/
def Obligations.IncompleteCommandWaits : Prop :=
  ∀ i n s, i.wf = true → n < (encode i).length → s.cmd = (encode i).take n → step s = .next s

/-- R230: while a word of the last response is not taken, the hardware holds, whatever stands on the command port (log
entry 5). -/
def Obligations.UntakenResponseHolds : Prop := ∀ s, s.rsp ≠ [] → step s = .next s

/-- R70, R78, R229: a host that offers a command's words one by one, the hardware looking at the port after each, gets
exactly one execution of the command, after its last word. -/
def Obligations.WordByWordDelivery : Prop :=
  ∀ i s, i.wf = true → s.cmd = [] → s.rsp = [] → moves (issueMoves (encode i)) s = exec i s

/-- R70, R76, R77: a command's one response is a status word with its RLEN, then ceil(RLEN/4) words; RLEN is the
command's result length on OK and 0 on an error; it stands behind the words already at the response port. -/
def Obligations.OneResponsePerCommand : Prop :=
  ∀ i s t, i.wf = true → exec i s = .next t →
    ∃ st n ws, t.rsp = s.rsp ++ statusWord st n :: ws ∧ ws.length = (n + 3) / 4 ∧ n < 2 ^ 24 ∧
      (st = .ok → n = resultLength i) ∧ (st ≠ .ok → n = 0)

/-- R10, R196: a command whose response is an error status has changed nothing but the response port. -/
def Obligations.ErrorsChangeNothing : Prop :=
  ∀ i s t st, st ≠ .ok → exec i s = .next t → t.rsp = s.rsp ++ [statusWord st 0] →
    t = { s with rsp := s.rsp ++ [statusWord st 0] }

/-- R193: READ_U32, READ_U64, READ_BYTES of every length, READ_SEED and CLONE_STATE raise Unseeded when SEEDED = 0 and
change no state; SET_SEED and TRY_RESTORE_STATE never raise it. -/
def Obligations.UnseededRaises : Prop :=
  (∀ i s, (isRead i = true ∨ i = .cloneState) → s.seeded = false →
    exec i s = .next { s with rsp := s.rsp ++ [0x00000003] }) ∧
  (∀ k s t, exec (.setSeed k) s = .next t → t.rsp ≠ s.rsp ++ [0x00000003]) ∧
  (∀ k bc s t, exec (.tryRestoreState k bc) s = .next t → t.rsp ≠ s.rsp ++ [0x00000003])

/-! ### The commands -/

/-- R153: SET_SEED, in every state and for every payload: K is the payload itself, not ratcheted, BUF is FILL(K) (its
layout: BufferLayout), CUR = 0, SEEDED = 1, the response one status word OK; BK and the command port are unchanged. -/
def Obligations.SetSeedResult : Prop :=
  ∀ p s, ∃ t, exec (.setSeed p) s = .next t ∧ t.key = p ∧ t.buf = fillBuf p ∧ t.cur = 0 ∧ t.seeded = true ∧ t.bk = s.bk ∧
    t.cmd = s.cmd ∧ t.rsp = s.rsp ++ [0x00000000]

/-- R154: READ_U32. Unseeded if SEEDED = 0; with 4 bytes left, the 4 bytes at the cursor, least significant first, and
CUR + 4, nothing else changed; with 0 to 3 left, a refill first, then word 0 of the new buffer and CUR = 4. That x and
CTR keep their values without a refill, and what a refill leaves in them, is the model's choice (log entry 4). -/
def Obligations.ReadU32Result : Prop :=
  ∀ s,
    (s.seeded = false → exec .readU32 s = .next { s with rsp := s.rsp ++ [0x00000003] }) ∧
    (s.seeded = true → s.cur.toNat ≤ 988 →
      exec .readU32 s =
        .next { s with cur := s.cur + 4, rsp := s.rsp ++ [0x00000400, le32 (s.buf.readBytes s.cur.toNat 4)] }) ∧
    (s.seeded = true → 989 ≤ s.cur.toNat → s.cur.toNat ≤ 992 →
      exec .readU32 s =
        .next { refill s with cur := 4, rsp := s.rsp ++ [0x00000400, (refill s).buf.readWord 0] })

/-- R155: READ_U64. Unseeded if SEEDED = 0; with 8 bytes left, the 8 bytes at the cursor, low word first, and CUR + 8,
nothing else changed; with 0 to 7 left, a refill first, then words 0 and 1 of the new buffer and CUR = 8. That x and
CTR keep their values without a refill, and what a refill leaves in them, is the model's choice (log entry 4). -/
def Obligations.ReadU64Result : Prop :=
  ∀ s,
    (s.seeded = false → exec .readU64 s = .next { s with rsp := s.rsp ++ [0x00000003] }) ∧
    (s.seeded = true → s.cur.toNat ≤ 984 →
      exec .readU64 s =
        .next { s with
          cur := s.cur + 8
          rsp := s.rsp ++ [0x00000800, le32 (s.buf.readBytes s.cur.toNat 4),
            le32 (s.buf.readBytes (s.cur.toNat + 4) 4)] }) ∧
    (s.seeded = true → 985 ≤ s.cur.toNat → s.cur.toNat ≤ 992 →
      exec .readU64 s =
        .next { refill s with
          cur := 8
          rsp := s.rsp ++ [0x00000800, (refill s).buf.readWord 0, (refill s).buf.readWord 1] })

/-- R156: READ_BYTES of every encodable length, from every seeded state that meets the invariant: the bytes are those
of the canonical stream of K from CUR on (R159, marked "[derived: from rules R151, R152, R156]"); CUR, K and BUF end
as R156's formulas say, the refill lazy (decision D12); SEEDED, BK and the command port are unchanged. -/
def Obligations.ReadBytesResult : Prop :=
  ∀ len s, Good s → s.seeded = true → len ≤ lenMax →
    ∃ t, exec (.readBytes len) s = .next t ∧
      t.rsp = s.rsp ++ statusWord .ok len :: packWords (streamBytes s.key s.cur.toNat len) ∧
      t.cur.toNat = cursorAfter s.cur.toNat len ∧
      t.key = ratchetTimes (refillCount s.cur.toNat len) s.key ∧
      t.buf = fillBuf t.key ∧ t.seeded = true ∧ t.bk = s.bk ∧ t.cmd = s.cmd

/-- R156's zero-length case, from every seeded state: nothing changes, even at CUR = 992, and the response is one
status word OK with RLEN 0. -/
def Obligations.ReadBytesZeroChangesNothing : Prop :=
  ∀ s, s.seeded = true → exec (.readBytes 0) s = .next { s with rsp := s.rsp ++ [0x00000000] }

/-- R158: READ_SEED is READ_BYTES 32 in every state. From a seeded state that meets the invariant it returns the next
32 bytes of the canonical stream of K (R159, marked "[derived: from rules R151, R152, R156]"), and CUR, K and BUF end
as R156's formulas say, the refill lazy (decision D12). -/
def Obligations.ReadSeedResult : Prop :=
  (∀ s, exec .readSeed s = exec (.readBytes 32) s) ∧
  (∀ s, Good s → s.seeded = true →
    ∃ t, exec .readSeed s = .next t ∧
      t.rsp = s.rsp ++ 0x00002000 :: packWords (streamBytes s.key s.cur.toNat 32) ∧
      t.cur.toNat = cursorAfter s.cur.toNat 32 ∧
      t.key = ratchetTimes (refillCount s.cur.toNat 32) s.key ∧
      t.buf = fillBuf t.key ∧ t.seeded = true ∧ t.bk = s.bk ∧ t.cmd = s.cmd)

/-- R180: CLONE_STATE. Unseeded if SEEDED = 0; otherwise the eight key words and then the count, clamped to 992, and
no state but the response port changes. -/
def Obligations.CloneStateResult : Prop :=
  ∀ s,
    (s.seeded = false → exec .cloneState s = .next { s with rsp := s.rsp ++ [0x00000003] }) ∧
    (s.seeded = true →
      exec .cloneState s =
        .next { s with
          rsp := s.rsp ++ 0x00002400 :: (s.key.toList ++ [BitVec.ofNat 32 (min s.cur.toNat 992)]) })

/-- R181: TRY_RESTORE_STATE, in every state. A count above 992 raises InvalidSnapshot and changes nothing; any other
count seeds the core from the snapshot's seed with no ratchet and sets CUR to the count. -/
def Obligations.TryRestoreStateResult : Prop :=
  ∀ p bc s,
    (992 < bc.toNat → exec (.tryRestoreState p bc) s = .next { s with rsp := s.rsp ++ [0x00000001] }) ∧
    (bc.toNat ≤ 992 →
      ∃ t, exec (.tryRestoreState p bc) s = .next t ∧ t.key = p ∧ t.buf = fillBuf p ∧ t.cur.toNat = bc.toNat ∧
        t.seeded = true ∧ t.bk = s.bk ∧ t.cmd = s.cmd ∧ t.rsp = s.rsp ++ [0x00000000])

/-- R152, R225: REFILL. The new K is the old NextKey Region, words 248 to 255; BUF is the fill from that new K, by the
layout that R136 marks "[from general knowledge, not in source]" (log entry 11); CUR = 0; SEEDED, BK and the ports are
unchanged. -/
def Obligations.RefillRatchetsThenFills : Prop :=
  ∀ s,
    (∀ (j : Nat) (hj : j < 8), (refill s).key[j] = s.buf.readWord (248 + j)) ∧
    (∀ (g w l : Nat) (_ : g < 4) (hw : w < 16) (_ : l < 4),
      (refill s).buf.readWord (64 * g + 4 * w + l) = (block (refill s).key (BitVec.ofNat 32 (4 * g + l)))[w]) ∧
    (refill s).cur = 0 ∧ (refill s).seeded = s.seeded ∧ (refill s).bk = s.bk ∧ (refill s).cmd = s.cmd ∧
    (refill s).rsp = s.rsp

/-- R56, R166: a command that performs no fill leaves K, every byte of BUF, SEEDED, BK and the command port as they
were (their only writers are reset and the fills: R20, R21, R22, R24, R25); it may move CUR and answers on the
response port. That it leaves the transient registers x and CTR as they were is the model's choice (log entry 4),
since R26 carries no value of them past a command. -/
def Obligations.NoFillNoStore : Prop :=
  ∀ i s t, exec i s = .next t → fillCount i s = 0 →
    t.key = s.key ∧ (∀ a, t.buf.readByte a = s.buf.readByte a) ∧ t.buf = s.buf ∧ t.x = s.x ∧ t.ctr = s.ctr ∧
    t.seeded = s.seeded ∧ t.bk = s.bk ∧ t.cmd = s.cmd

/-- R137, R166: a command that performs a fill leaves in BUF exactly the fill from the K it leaves, in the transient
registers what its backend's last kernel run leaves, and SEEDED = 1; BK and the command port are unchanged. The
transient registers' values rest on log entry 4. -/
def Obligations.FillLeavesFilledBuffer : Prop :=
  ∀ i s t, exec i s = .next t → 0 < fillCount i s →
    t.buf = fillBuf t.key ∧ t.x = lastRegs s.bk.val t.key ∧ t.ctr = lastCtr s.bk.val ∧ t.seeded = true ∧ t.bk = s.bk ∧
    t.cmd = s.cmd

/-- R163, R166: a read ratchets the key as many times as R166 counts refills, and in no other way. -/
def Obligations.ReadsRatchetByRefillCount : Prop :=
  ∀ i s t, Good s → isRead i = true → exec i s = .next t → t.key = ratchetTimes (fillCount i s) s.key

/-! ### The stream -/

/-- R159, marked "[derived: from rules R151, R152, R156]": after SET_SEED of any seed, in any state, READ_BYTES
commands of any lengths return the successive segments of the seed's canonical byte stream. -/
def Obligations.ByteReadsReturnStream : Prop :=
  ∀ seed ns s, (∀ n ∈ ns, n ≤ lenMax) →
    ∃ t, execAll (.setSeed seed :: ns.map .readBytes) s = .next t ∧
      t.rsp = s.rsp ++ 0x00000000 :: segmentResponses seed 0 ns

/-- R160: any split of a total length into byte reads gives the same bytes and the same state as one read of the
total, zero-length reads included, from every state; that the states agree too is what R160 marks "[derived: from rule
R156]". That x and CTR agree as well rests on log entry 4. -/
def Obligations.ReadDecomposition : Prop := ∀ ns s, readAll ns s = readOut ns.sum s

/-- R161, marked "[derived: from rules R154, R155]": READ_U64 commands alone, or READ_U32 commands alone, from a fresh
seed, return the stream with nothing skipped. -/
def Obligations.WordReadsAreGapFree : Prop :=
  ∀ seed n s,
    (∃ t, execAll (.setSeed seed :: List.replicate n .readU64) s = .next t ∧
      t.rsp = s.rsp ++ 0x00000000 :: segmentResponses seed 0 (List.replicate n 8)) ∧
    (∃ t, execAll (.setSeed seed :: List.replicate n .readU32) s = .next t ∧
      t.rsp = s.rsp ++ 0x00000000 :: segmentResponses seed 0 (List.replicate n 4))

/-- R162: a word read does what the byte read of its width does, response and state alike, exactly where it does not
straddle byte 992: they differ in a seeded core at CUR = 989 to 991 for READ_U32, at 985 to 991 for READ_U64, and
nowhere else. -/
def Obligations.WordAndByteReadsAgree : Prop :=
  ∀ s, s.cur.toNat ≤ 992 →
    (exec .readU32 s = exec (.readBytes 4) s ↔ s.seeded = false ∨ s.cur.toNat ≤ 988 ∨ s.cur.toNat = 992) ∧
    (exec .readU64 s = exec (.readBytes 8) s ↔ s.seeded = false ∨ s.cur.toNat ≤ 984 ∨ s.cur.toNat = 992)

/-- R36, marked "[derived: from rule R32 and 41_batch_kernel.md rule R142]": two cores that hold the same SEEDED, K,
BUF and CUR answer every command sequence with the same words and stay alike, whatever their backends (of one AVAIL,
log entry 15) and whatever their transient registers and ports hold; or, where both are seeded with a CUR above 992,
which R23 says is never stored, a read stops both with the same fault (the model's, log entry 7). -/
def Obligations.LikeEnginesAnswerAlike : Prop :=
  ∀ is s u, SameEngine s u →
    (∃ s' u' r, execAll is s = .next s' ∧ execAll is u = .next u' ∧ SameEngine s' u' ∧ s'.rsp = s.rsp ++ r ∧
      u'.rsp = u.rsp ++ r) ∨
    (s.seeded = true ∧ 992 < s.cur.toNat ∧ ∃ f, execAll is s = .fault f ∧ execAll is u = .fault f)

/-- R183, marked "[derived: from rules R180, R181, 10_state.md rule R32, 41_batch_kernel.md rule R142]": the response
to CLONE_STATE is a snapshot; given to TRY_RESTORE_STATE on any core in any state it makes an engine like the
original, which answers every later command sequence with the original's words. The two cores' backends are of one
AVAIL (log entry 15). -/
def Obligations.SnapshotRoundTrip : Prop :=
  ∀ s u, Good s → s.seeded = true →
    ∃ t k bc v, exec .cloneState s = .next t ∧ t.rsp = s.rsp ++ 0x00002400 :: (k.toList ++ [bc]) ∧
      exec (.tryRestoreState k bc) u = .next v ∧ SameEngine s v ∧
      ∀ is, ∃ s' v' r, execAll is s = .next s' ∧ execAll is v = .next v' ∧ SameEngine s' v' ∧ s'.rsp = s.rsp ++ r ∧
        v'.rsp = v.rsp ++ r

/-- R184: after a rejected restore every later command sequence runs as if it had not been issued, but for its one
response word. -/
def Obligations.RejectedRestoreIsInvisible : Prop :=
  ∀ k (bc : Word) is s, 992 < bc.toNat →
    execAll (.tryRestoreState k bc :: is) s = execAll is { s with rsp := s.rsp ++ [0x00000001] }

/-- R231, R166: what the control path does (the new CUR and SEEDED, the number of fills, the status word and the
number of response words) depends on the opcode, the length or count, CUR and SEEDED alone, not on K, BUF or any seed
word. -/
def Obligations.ControlPathIgnoresSecrets : Prop :=
  ∀ i j s u, publicPart i = publicPart j → s.seeded = u.seeded → s.cur = u.cur → s.cur.toNat ≤ 992 →
    fillCount i s = fillCount j u ∧
    ∃ s' u' w ws vs, exec i s = .next s' ∧ exec j u = .next u' ∧ s'.cur = u'.cur ∧ s'.seeded = u'.seeded ∧
      s'.rsp = s.rsp ++ w :: ws ∧ u'.rsp = u.rsp ++ w :: vs ∧ ws.length = vs.length

/-! ### The block transform, the kernels and the fills -/

/-- R102: for the four rotation amounts, bit i of ROTL32 is bit (i - n) mod 32 (the direction marked "[from general
knowledge, not in source]", log entry 11); the shifts are the arithmetic ones; and or, xor and addition of the two
shifted values are the same ("[derived: from the definitions of SHL32 and SHR32 in this rule]"). -/
def Obligations.RotationMovesBits : Prop :=
  ∀ (a : Word) (n : Nat), n ∈ [16, 12, 8, 7] →
    (∀ i, i < 32 → (rotl32 a n).getLsbD i = a.getLsbD ((i + 32 - n) % 32)) ∧
    (shl32 a n).toNat = a.toNat * 2 ^ n % 2 ^ 32 ∧ (shr32 a (32 - n)).toNat = a.toNat / 2 ^ (32 - n) ∧
    rotl32 a n = shl32 a n ^^^ shr32 a (32 - n) ∧ rotl32 a n = shl32 a n + shr32 a (32 - n)

/-- R103: the quarter-round is a bijection on 4-tuples of words ("[derived: from rules R100, R101, R102]"). -/
def Obligations.QuarterRoundIsBijective : Prop :=
  Function.Bijective fun p : Word × Word × Word × Word => quarterRound scalarArx p.1 p.2.1 p.2.2.1 p.2.2.2

/-- R104, R105: quarter-rounds on disjoint registers commute, so the four of a column or a diagonal round may be done
in any order ("[derived: from rule R103]"). The statement holds for any eight distinct registers. -/
def Obligations.DisjointQuarterRoundsCommute : Prop :=
  ∀ (i j k m i' j' k' m' : Fin 16) (x : Vector Word 16), [i, j, k, m, i', j', k', m'].Nodup →
    qrAt scalarArx i j k m (qrAt scalarArx i' j' k' m' x) = qrAt scalarArx i' j' k' m' (qrAt scalarArx i j k m x)

/-- R109, R110: a block is the state after ROUNDS with the original key words added into words 4 to 11, and words 0 to
3 and 12 to 15 as ROUNDS left them. -/
def Obligations.FeedForwardAddsKeyOnly : Prop :=
  ∀ key ctr (w : Nat) (hw : w < 16),
    (∀ hk : 4 ≤ w ∧ w < 12,
      (block key ctr)[w] = add32 (rounds scalarArx (initState scalarArx key ctr))[w] (key[w - 4]'(by omega))) ∧
    (¬ (4 ≤ w ∧ w < 12) → (block key ctr)[w] = (rounds scalarArx (initState scalarArx key ctr))[w])

/-- R135: lane l of a kernel run is the block of counter ctr0 + l, for every number of lanes. -/
def Obligations.LaneEquivalence : Prop :=
  ∀ (L : Nat) (key : Key) (ctr0 : Word) (w l : Nat) (hw : w < 16) (hl : l < L),
    (kernel L key ctr0)[w][l] = (block key (add32 ctr0 (BitVec.ofNat 32 l)))[w]

/-- R136: the buffer layout, and that it reaches every one of the 256 words exactly once. The layout is what R136
marks "[from general knowledge, not in source]" (log entry 11). -/
def Obligations.BufferLayout : Prop :=
  (∀ key (g w l : Nat) (_ : g < 4) (hw : w < 16) (_ : l < 4),
    (fillBuf key).readWord (64 * g + 4 * w + l) = (block key (BitVec.ofNat 32 (4 * g + l)))[w]) ∧
  (∀ i, i < 256 → ∃! p : Nat × Nat × Nat, p.1 < 4 ∧ p.2.1 < 16 ∧ p.2.2 < 4 ∧ i = 64 * p.1 + 4 * p.2.1 + p.2.2)

/-- R141, R142: the scalar fill, the 4-lane fill and the 8-lane fill, done store by store from any canonical buffer,
never leave the buffer and all leave the same 256 words (R142, marked "[derived: from rules R135, R138, R139, R140]");
the fill of the core's own backend is the engine's FILL, transient registers included (those by log entry 4). -/
def Obligations.AllBackendsFillAlike : Prop :=
  (∀ L key s, s.buf.wf = true → ∃ t, fillBackend L key s = .ok t ∧ t.buf = fillBuf key) ∧
  (∀ key s, s.buf.wf = true → fillBackend s.bk.val key s = .ok (fill key s))

/-- R145: AUTO selects 8 if it is available, else 4 if it is available, else 1; an explicit strap is taken as it
is. -/
def Obligations.SelectionRule : Prop :=
  (Config.avail .eight = true → (select .auto).val = .eight) ∧
  (Config.avail .eight = false → Config.avail .four = true → (select .auto).val = .four) ∧
  (Config.avail .eight = false → Config.avail .four = false → (select .auto).val = .one) ∧
  (∀ b, select (.explicit b) = b)

/-- The source's one numeric example (95_test_vectors.md V1), from reset, on whatever backend the strap selects: the
first three READ_U64 of the test seed. It holds under the general-knowledge passages K1 to K4 and K6 (log entry
11). -/
def Obligations.SourceExample : Prop :=
  ∃ t, execAll [.setSeed #v[0x44434241, 0x48474645, 0x4c4b4a49, 0x504f4e4d, 0x54535251, 0x58575655, 0x32315a59, 0x36353433],
      .readU64, .readU64, .readU64] State.reset = .next t ∧
    t.rsp = [0x00000000, 0x00000800, 0x3d4616a5, 0xb773b606, 0x00000800, 0xa66abc3c, 0x1160af22,
      0x00000800, 0x418d287c, 0x8c2599d9]

/-! ### Byte order and packing, the assembler, several cores -/

/-- R63: a byte string of n bytes is carried in ceil(n/4) words; byte i is bits 8(i mod 4)+7 to 8(i mod 4) of word i
div 4; the unused high bytes of the last word are zero. -/
def Obligations.PortPacking : Prop :=
  ∀ bs : List Byte,
    (packWords bs).length = (bs.length + 3) / 4 ∧
    (∀ i, i < bs.length →
      ((packWords bs).getD (i / 4) 0).extractLsb' (8 * (i % 4)) 8 = bs.getD i 0) ∧
    (∀ i, bs.length ≤ i → i < 4 * (packWords bs).length →
      ((packWords bs).getD (i / 4) 0).extractLsb' (8 * (i % 4)) 8 = 0)

/-- R21, R51, R73: the 32-byte form and the 8-word form of a seed are two spellings of the same key. -/
def Obligations.SeedFormsAreEquivalent : Prop :=
  (∀ b : Vector Byte 32, bytesOfKey (keyOfBytes b) = b.toList) ∧
  (∀ (k : Key) (b : Vector Byte 32), b.toList = bytesOfKey k → keyOfBytes b = k)

/-- R82 (i), (ii), (iv): NEW, put on the ports word by word, is a reset and then SET_SEED; a READ_BYTES of any length
expands into encodable reads that sum to it and give the bytes and the state of the one long read; RESTORE of
CLONE_STATE's result words is TRY_RESTORE_STATE of the snapshot they spell. The forms are data, not text (log entry
9). That x and CTR agree after a split read rests on log entry 4. -/
def Obligations.PseudoInstructionsExpand : Prop :=
  (∀ sel f s, moves ((Asm.new sel f).expand.flatMap HostAct.moves) s = exec (.setSeed f.key) (State.resetWith sel)) ∧
  (∀ n, (splitLength n).sum = n ∧ (∀ l ∈ splitLength n, l ≤ lenMax) ∧ (∀ s, readAll (splitLength n) s = readOut n s)) ∧
  (∀ n, (Asm.readBytes n).expand = (splitLength n).map fun l => HostAct.issue (.readBytes l)) ∧
  (∀ (k : Key) (bc : Word) (r : Vector Word 9), r.toList = k.toList ++ [bc] →
    (Asm.restore r).expand = [.issue (.tryRestoreState k bc)])

/-- R204: a move at one core leaves every other core as it was, and moves at two cores may be interleaved either way.
The cores have one AVAIL (log entry 15). -/
def Obligations.CoresAreIndependent : Prop :=
  (∀ c m (cs cs' : Cores), moveAt c m cs = .next cs' → cs'.length = cs.length ∧ ∀ d, d ≠ c → cs'[d]? = cs[d]?) ∧
  (∀ c d m n (cs as bs : Cores), c ≠ d → moveAt c m cs = .next as → moveAt d n as = .next bs →
    ∃ es, moveAt d n cs = .next es ∧ moveAt c m es = .next bs)

/-- R70: each port is an ordered, lossless stream. Words the host offers stand on the command port in their order,
behind those already there; words the host takes leave the response port oldest first, and no others leave it; these
moves change nothing else. A step takes words from the front of the command port alone, and puts words behind those of
the response port alone. That the words in transit are lists of State is log entry 5. -/
def Obligations.PortsAreLosslessStreams : Prop :=
  (∀ ws s, moves (ws.map .offer) s = .next { s with cmd := s.cmd ++ ws }) ∧
  (∀ n s, moves (List.replicate n .take) s = .next { s with rsp := s.rsp.drop n }) ∧
  (∀ s t, step s = .next t → (∃ taken, s.cmd = taken ++ t.cmd) ∧ ∃ produced, t.rsp = s.rsp ++ produced)
end

