-- ==== Sys2Proof/Laws/Memory.lean ====
section
/-! SUPPORT. The laws of the working buffer: a read after a write, every operation keeps the canonical form, and two
canonical memories that read alike are equal. -/

namespace Sys2Proof.Machine

theorem readByte_consByte (a : Nat) (v : Byte) (m : Memory) (c : Nat) (h : m.readByte a = unlistedByte) :
    Memory.readByte (Memory.consByte a v m) c = if a = c then v else m.readByte c := by
  unfold Memory.consByte
  split
  · split
    · subst_vars; exact h
    · rfl
  · rfl

theorem wfFrom_mono {lo lo' : Nat} {m : Memory} (h : Memory.wfFrom lo m = true) (hl : lo' ≤ lo) :
    Memory.wfFrom lo' m = true := by
  cases m with
  | nil => rfl
  | cons e m =>
    simp only [Memory.wfFrom, Bool.and_eq_true, decide_eq_true_eq] at h ⊢
    exact ⟨⟨⟨hl.trans h.1.1.1, h.1.1.2⟩, h.1.2⟩, h.2⟩

/-- Below its first address a canonical memory lists nothing. -/
theorem readByte_below {lo : Nat} {m : Memory} (h : Memory.wfFrom lo m = true) {c : Nat} (hc : c < lo) :
    m.readByte c = unlistedByte := by
  induction m generalizing lo with
  | nil => rfl
  | cons e m ih =>
    simp only [Memory.wfFrom, Bool.and_eq_true, decide_eq_true_eq] at h
    simp only [Memory.readByte]
    rw [if_neg (by omega)]
    exact ih h.2 (by omega)

/-- No address outside the buffer is listed. -/
theorem readByte_outside {lo : Nat} {m : Memory} (h : Memory.wfFrom lo m = true) {c : Nat} (hc : bufBytes ≤ c) :
    m.readByte c = unlistedByte := by
  induction m generalizing lo with
  | nil => rfl
  | cons e m ih =>
    simp only [Memory.wfFrom, Bool.and_eq_true, decide_eq_true_eq] at h
    simp only [Memory.readByte]
    rw [if_neg (by omega)]
    exact ih h.2

theorem wfFrom_consByte {lo a : Nat} {v : Byte} {m : Memory} (hm : Memory.wfFrom (a + 1) m = true) (hl : lo ≤ a)
    (ha : a < bufBytes) : Memory.wfFrom lo (Memory.consByte a v m) = true := by
  unfold Memory.consByte
  split
  · exact wfFrom_mono hm (by omega)
  · simp only [Memory.wfFrom, Bool.and_eq_true, decide_eq_true_eq]
    exact ⟨⟨⟨hl, ha⟩, by assumption⟩, hm⟩

/-- A read after a write: the byte written at its address, the old byte everywhere else. -/
theorem readByte_writeByte {lo : Nat} {m : Memory} (h : Memory.wfFrom lo m = true) (a : Nat) (v : Byte) (c : Nat) :
    (m.writeByte a v).readByte c = if a = c then v else m.readByte c := by
  induction m generalizing lo with
  | nil => exact readByte_consByte a v [] c rfl
  | cons e m ih =>
    have hw := h
    simp only [Memory.wfFrom, Bool.and_eq_true, decide_eq_true_eq] at h
    simp only [Memory.writeByte]
    split
    · refine readByte_consByte a v _ c ?_
      simp only [Memory.readByte]
      rw [if_neg (by omega)]
      exact readByte_below h.2 (by omega)
    · split
      · rename_i hae
        rw [readByte_consByte a v m c (readByte_below h.2 (by omega))]
        simp only [Memory.readByte]
        split
        · rfl
        · rw [if_neg (by omega)]
      · simp only [Memory.readByte, ih h.2]
        split
        · rw [if_neg (by omega)]
        · rfl

theorem wfFrom_writeByte {lo : Nat} {m : Memory} (h : Memory.wfFrom lo m = true) {a : Nat} (v : Byte) (hl : lo ≤ a)
    (ha : a < bufBytes) : Memory.wfFrom lo (m.writeByte a v) = true := by
  induction m generalizing lo with
  | nil => exact wfFrom_consByte rfl hl ha
  | cons e m ih =>
    have hw := h
    simp only [Memory.wfFrom, Bool.and_eq_true, decide_eq_true_eq] at h
    simp only [Memory.writeByte]
    split
    · refine wfFrom_consByte ?_ hl ha
      simp only [Memory.wfFrom, Bool.and_eq_true, decide_eq_true_eq]
      exact ⟨⟨⟨by omega, h.1.1.2⟩, h.1.2⟩, h.2⟩
    · split
      · rename_i hae
        exact wfFrom_consByte (hae ▸ h.2) hl ha
      · simp only [Memory.wfFrom, Bool.and_eq_true, decide_eq_true_eq]
        exact ⟨⟨⟨h.1.1.1, h.1.1.2⟩, h.1.2⟩, ih h.2 (by omega)⟩

/-- Writing inside the buffer keeps the canonical form. -/
theorem wf_writeByte {m : Memory} (h : m.wf = true) {a : Nat} (v : Byte) (ha : a < bufBytes) :
    (m.writeByte a v).wf = true :=
  wfFrom_writeByte h v (Nat.zero_le a) ha

theorem wf_writeBytes {m : Memory} (h : m.wf = true) {a : Nat} (vs : List Byte) (ha : a + vs.length ≤ bufBytes) :
    (m.writeBytes a vs).wf = true := by
  induction vs generalizing m a with
  | nil => exact h
  | cons v vs ih =>
    simp only [List.length_cons] at ha
    exact ih (wf_writeByte h v (by omega)) (by omega)

/-- A read after a write of a string: its bytes inside the written range, the old bytes everywhere else. -/
theorem readByte_writeBytes {m : Memory} (h : m.wf = true) (a : Nat) (vs : List Byte) (ha : a + vs.length ≤ bufBytes)
    (c : Nat) :
    (m.writeBytes a vs).readByte c = if a ≤ c ∧ c < a + vs.length then vs.getD (c - a) 0 else m.readByte c := by
  induction vs generalizing m a with
  | nil => rw [if_neg (by simp)]; rfl
  | cons v vs ih =>
    simp only [List.length_cons] at ha ⊢
    simp only [Memory.writeBytes]
    rw [ih (wf_writeByte h v (by omega)) (a + 1) (by omega), readByte_writeByte h]
    by_cases hc : a = c
    · subst hc
      rw [if_neg (by omega), if_pos rfl, if_pos (by omega)]
      simp
    · by_cases hin : a + 1 ≤ c ∧ c < a + 1 + vs.length
      · rw [if_pos hin, if_pos (by omega)]
        obtain ⟨d, rfl⟩ : ∃ d, c = a + 1 + d := ⟨c - (a + 1), by omega⟩
        have h1 : a + 1 + d - a = d + 1 := by omega
        simp [h1]
      · rw [if_neg hin, if_neg hc, if_neg (by omega)]

theorem wfFrom_ofBytesAt (a : Nat) (vs : List Byte) (h : a + vs.length ≤ bufBytes) :
    Memory.wfFrom a (Memory.ofBytesAt a vs) = true := by
  induction vs generalizing a with
  | nil => rfl
  | cons v vs ih =>
    simp only [List.length_cons] at h
    exact wfFrom_consByte (ih (a + 1) (by omega)) le_rfl (by omega)

/-- A memory made of a string reads as that string, and as unlisted elsewhere. -/
theorem readByte_ofBytesAt (a : Nat) (vs : List Byte) (h : a + vs.length ≤ bufBytes) (c : Nat) :
    (Memory.ofBytesAt a vs).readByte c = if a ≤ c ∧ c < a + vs.length then vs.getD (c - a) 0 else unlistedByte := by
  induction vs generalizing a with
  | nil => rw [if_neg (by simp)]; rfl
  | cons v vs ih =>
    simp only [List.length_cons] at h ⊢
    simp only [Memory.ofBytesAt]
    rw [readByte_consByte _ _ _ _ (readByte_below (wfFrom_ofBytesAt (a + 1) vs (by omega)) (by omega)),
      ih (a + 1) (by omega)]
    by_cases hc : a = c
    · subst hc
      rw [if_pos rfl, if_pos (by omega)]
      simp
    · rw [if_neg hc]
      by_cases hin : a + 1 ≤ c ∧ c < a + 1 + vs.length
      · rw [if_pos hin, if_pos (by omega)]
        obtain ⟨d, rfl⟩ : ∃ d, c = a + 1 + d := ⟨c - (a + 1), by omega⟩
        have h1 : a + 1 + d - a = d + 1 := by omega
        simp [h1]
      · rw [if_neg hin, if_neg (by omega)]

theorem bytesOfWords_length (ws : List Word) : (bytesOfWords ws).length = 4 * ws.length := by
  induction ws with
  | nil => rfl
  | cons w ws ih =>
    have h : bytesOfWords (w :: ws) = bytes32 w ++ bytesOfWords ws := rfl
    rw [h, List.length_append, ih, List.length_cons]
    simp [bytes32]
    omega

/-- A memory made of at most 256 words is canonical. -/
theorem wf_ofWords (ws : List Word) (h : ws.length ≤ 256) : (Memory.ofWords ws).wf = true :=
  wfFrom_ofBytesAt 0 _ (by rw [bytesOfWords_length]; simp [bufBytes]; omega)

theorem fillWords_length (key : Key) : (fillWords key).length = 256 := by
  simp [fillWords, groupWords, List.length_flatMap]

/-- Every fill leaves a canonical buffer. -/
theorem wf_fillBuf (key : Key) : (fillBuf key).wf = true := by
  unfold fillBuf
  exact wf_ofWords _ (by rw [fillWords_length])

/-- The buffer at reset is canonical. -/
theorem wf_resetWith (sel : BkSel) : (State.resetWith sel).buf.wf = true := rfl

/-- Canonical memories that read alike are equal. -/
theorem memory_ext {lo : Nat} {m m' : Memory} (h : Memory.wfFrom lo m = true) (h' : Memory.wfFrom lo m' = true)
    (hr : ∀ c, m.readByte c = m'.readByte c) : m = m' := by
  induction m generalizing lo m' with
  | nil =>
    cases m' with
    | nil => rfl
    | cons e' m' =>
      simp only [Memory.wfFrom, Bool.and_eq_true, decide_eq_true_eq] at h'
      exact absurd (by simpa [Memory.readByte] using (hr e'.1).symm) h'.1.2
  | cons e m ih =>
    simp only [Memory.wfFrom, Bool.and_eq_true, decide_eq_true_eq] at h
    cases m' with
    | nil => exact absurd (by simpa [Memory.readByte] using hr e.1) h.1.2
    | cons e' m' =>
      simp only [Memory.wfFrom, Bool.and_eq_true, decide_eq_true_eq] at h'
      have key : e = e' := by
        rcases lt_trichotomy e.1 e'.1 with hlt | heq | hgt
        · have := hr e.1
          simp only [Memory.readByte, if_true] at this
          rw [if_neg (by omega), readByte_below h'.2 (by omega)] at this
          exact absurd this h.1.2
        · have := hr e.1
          simp only [Memory.readByte, if_true] at this
          rw [if_pos heq.symm] at this
          exact Prod.ext heq this
        · have := hr e'.1
          simp only [Memory.readByte, if_true] at this
          rw [if_neg (by omega), readByte_below h.2 (by omega)] at this
          exact absurd this.symm h'.1.2
      subst key
      congr 1
      refine ih h.2 h'.2 fun c => ?_
      by_cases hc : e.1 = c
      · subst hc
        rw [readByte_below h.2 (by omega), readByte_below h'.2 (by omega)]
      · have := hr c
        simpa [Memory.readByte, hc] using this

theorem memRead_eq {m : Memory} {addr n : Nat} (h : addr + n ≤ bufBytes) :
    memRead m addr n = .ok (m.readBytes addr n) := if_pos h

/-- All that a MemWrite can do: it stays inside the buffer, keeps the canonical form, sets its bytes and no other. -/
theorem memWrite_spec {m m' : Memory} {addr : Nat} {bs : List Byte} (hw : m.wf = true)
    (h : memWrite m addr bs = .ok m') :
    addr + bs.length ≤ bufBytes ∧ m'.wf = true ∧
      ∀ c, m'.readByte c = if addr ≤ c ∧ c < addr + bs.length then bs.getD (c - addr) 0 else m.readByte c := by
  unfold memWrite at h
  split at h
  · cases h
    exact ⟨by assumption, wf_writeBytes hw bs (by assumption), readByte_writeBytes hw addr bs (by assumption)⟩
  · cases h

@[simp] theorem readBytes_length (m : Memory) (a n : Nat) : (m.readBytes a n).length = n := by
  simp [Memory.readBytes]

end Sys2Proof.Machine
end

