-- ==== Sys2Proof/Laws/Bytes.lean ====
section
/-! SUPPORT. Byte order: words and bytes convert back and forth, and the word view of a buffer made of words. -/

namespace Sys2Proof.Machine

theorem le32_toNat (a b c d : Byte) :
    (le32 [a, b, c, d]).toNat = a.toNat + 256 * (b.toNat + 256 * (c.toNat + 256 * d.toNat)) := by
  simp only [le32, leNat, BitVec.toNat_ofNat]
  omega

theorem bytes32_toNat (v : Word) :
    (bytes32 v).map BitVec.toNat =
      [v.toNat % 256, v.toNat / 256 % 256, v.toNat / 65536 % 256, v.toNat / 16777216 % 256] := by
  simp [bytes32, BitVec.extractLsb'_toNat, Nat.shiftRight_eq_div_pow]

@[simp] theorem le32_bytes32 (v : Word) : le32 (bytes32 v) = v := by
  apply BitVec.eq_of_toNat_eq
  have h : le32 (bytes32 v) = le32 [v.extractLsb' 0 8, v.extractLsb' 8 8, v.extractLsb' 16 8, v.extractLsb' 24 8] := rfl
  rw [h, le32_toNat]
  simp [BitVec.extractLsb'_toNat, Nat.shiftRight_eq_div_pow]
  omega

@[simp] theorem bytes32_le32 (a b c d : Byte) : bytes32 (le32 [a, b, c, d]) = [a, b, c, d] := by
  apply List.map_injective_iff.2 (fun _ _ h => BitVec.eq_of_toNat_eq h)
  rw [bytes32_toNat, le32_toNat]
  simp
  omega

@[simp] theorem bytes64_le64 (a b c d e f g h : Byte) :
    bytes64 (le64 [a, b, c, d, e, f, g, h]) = [a, b, c, d, e, f, g, h] := by
  apply List.map_injective_iff.2 (fun _ _ h => BitVec.eq_of_toNat_eq h)
  simp [bytes64, le64, leNat, BitVec.extractLsb'_toNat, Nat.shiftRight_eq_div_pow]
  omega

theorem packWords_bytes32_append (v : Word) (bs : List Byte) : packWords (bytes32 v ++ bs) = v :: packWords bs := by
  have h : packWords (bytes32 v ++ bs) = le32 (bytes32 v) :: packWords bs := by
    simp [bytes32, packWords]
  rw [h, le32_bytes32]

/-- A byte string made of words packs back into those words. -/
theorem packWords_bytesOfWords_append (ws : List Word) (bs : List Byte) :
    packWords (bytesOfWords ws ++ bs) = ws ++ packWords bs := by
  induction ws with
  | nil => rfl
  | cons w ws ih =>
    have h : bytesOfWords (w :: ws) ++ bs = bytes32 w ++ (bytesOfWords ws ++ bs) := by
      simp [bytesOfWords]
    rw [h, packWords_bytes32_append, ih, List.cons_append]

theorem bytesOfWords_getD (ws : List Word) (i k : Nat) (hi : i < ws.length) (hk : k < 4) :
    (bytesOfWords ws).getD (4 * i + k) 0 = (bytes32 (ws.getD i 0)).getD k 0 := by
  induction ws generalizing i with
  | nil => exact absurd hi (by simp)
  | cons w ws ih =>
    have h : bytesOfWords (w :: ws) = bytes32 w ++ bytesOfWords ws := rfl
    have hl : (bytes32 w).length = 4 := rfl
    rw [h]
    cases i with
    | zero =>
      rw [List.getD_append _ _ _ _ (by omega)]
      simp
    | succ i =>
      rw [List.getD_append_right _ _ _ _ (by omega), hl]
      have h1 : 4 * (i + 1) + k - 4 = 4 * i + k := by omega
      rw [h1, ih i (by simpa using hi)]
      simp

theorem bytes32_getD (v : Word) : [(bytes32 v).getD 0 0, (bytes32 v).getD 1 0, (bytes32 v).getD 2 0,
    (bytes32 v).getD 3 0] = bytes32 v := rfl

theorem readBytes_four (m : Memory) (a : Nat) :
    m.readBytes a 4 = [m.readByte a, m.readByte (a + 1), m.readByte (a + 2), m.readByte (a + 3)] := rfl

theorem readBytes_add (m : Memory) (a n k : Nat) : m.readBytes a (n + k) = m.readBytes a n ++ m.readBytes (a + n) k := by
  simp [Memory.readBytes, List.range_add, Nat.add_assoc]

/-- The bytes of a buffer made of words. -/
theorem readByte_ofWords (ws : List Word) (h : ws.length ≤ 256) (c : Nat) (hc : c < 4 * ws.length) :
    (Memory.ofWords ws).readByte c = (bytesOfWords ws).getD c 0 := by
  have hl := bytesOfWords_length ws
  unfold Memory.ofWords
  rw [readByte_ofBytesAt 0 _ (by rw [hl]; simp only [bufBytes]; omega), if_pos (by rw [hl]; omega)]
  rfl

/-- The word view of a buffer made of words is those words. -/
theorem readWord_ofWords (ws : List Word) (h : ws.length ≤ 256) (i : Nat) (hi : i < ws.length) :
    (Memory.ofWords ws).readWord i = ws.getD i 0 := by
  have hb : ∀ k, k < 4 → (Memory.ofWords ws).readByte (4 * i + k) = (bytes32 (ws.getD i 0)).getD k 0 := fun k hk => by
    rw [readByte_ofWords ws h _ (by omega), bytesOfWords_getD ws i k hi hk]
  have h0 := hb 0 (by omega)
  rw [Nat.add_zero] at h0
  rw [Memory.readWord, readBytes_four, h0, hb 1 (by omega), hb 2 (by omega), hb 3 (by omega), bytes32_getD, le32_bytes32]

end Sys2Proof.Machine
end

