-- ==== Sys2Proof/Laws/Decode.lean ====
section
/-! SUPPORT. The two fields of a command word, and the decoding of the head of each command, said once. -/

namespace Sys2Proof

/-- Field OPC of a command word built from its fields (R71). -/
@[simp] theorem opcField_commandWord (o : Byte) (a : BitVec 24) : opcField (commandWord o a) = o := by
  apply BitVec.eq_of_toNat_eq
  simp [opcField, commandWord]
  omega

/-- Field ARG of a command word built from its fields (R71). -/
@[simp] theorem argField_commandWord (o : Byte) (a : BitVec 24) : argField (commandWord o a) = a := by
  apply BitVec.eq_of_toNat_eq
  simp [argField, commandWord, BitVec.extractLsb'_toNat, Nat.shiftRight_eq_div_pow]
  omega

/-- A command word is its two fields: they leave no bit out (R71). -/
theorem commandWord_fields (w : Word) : commandWord (opcField w) (argField w) = w := by
  apply BitVec.eq_of_toNat_eq
  simp [opcField, argField, commandWord, BitVec.extractLsb'_toNat, Nat.shiftRight_eq_div_pow]
  omega

/-- Taking a key takes exactly its own 8 words (R73). -/
@[simp] theorem takeKey_toList (k : Key) (rest : List Word) : takeKey (k.toList ++ rest) = some (k, rest) := by
  obtain ⟨⟨l⟩, h⟩ := k
  simp only [List.size_toArray] at h
  match l, h with
  | [_, _, _, _, _, _, _, _], _ => rfl

/-- Taking a snapshot takes exactly its own 9 words (R74). -/
@[simp] theorem takeSnapshot_toList (k : Key) (bc : Word) (rest : List Word) :
    takeSnapshot (k.toList ++ bc :: rest) = some ((k, bc), rest) := by
  obtain ⟨⟨l⟩, h⟩ := k
  simp only [List.size_toArray] at h
  match l, h with
  | [_, _, _, _, _, _, _, _], _ => rfl

/-- What a key was taken from (R73). -/
theorem takeKey_some {ws rest : List Word} {k : Key} (h : takeKey ws = some (k, rest)) : ws = k.toList ++ rest := by
  unfold takeKey at h
  split at h <;> simp only [Option.some.injEq, Prod.mk.injEq, reduceCtorEq] at h
  obtain ⟨rfl, rfl⟩ := h
  rfl

/-- What a snapshot was taken from (R74). -/
theorem takeSnapshot_some {ws rest : List Word} {k : Key} {bc : Word} (h : takeSnapshot ws = some ((k, bc), rest)) :
    ws = k.toList ++ bc :: rest := by
  unfold takeSnapshot at h
  split at h <;> simp only [Option.some.injEq, Prod.mk.injEq, reduceCtorEq] at h
  obtain ⟨⟨rfl, rfl⟩, rfl⟩ := h
  rfl

/-- A word whose ARG must be 0 and is a head has ARG 0 (R79 (ii)). -/
theorem requireZeroArg_ok {cw : Word} {h h' : Head} (e : requireZeroArg cw h = .ok h') : argField cw = 0 ∧ h' = h := by
  unfold requireZeroArg at e
  split at e <;> simp_all

/-- The head of each command word (R72, R78). -/
@[simp] theorem decodeHead_setSeed : decodeHead (commandWord 1#8 0#24) = .ok .setSeed := by decide
@[simp] theorem decodeHead_readU32 : decodeHead (commandWord 2#8 0#24) = .ok .readU32 := by decide
@[simp] theorem decodeHead_readU64 : decodeHead (commandWord 3#8 0#24) = .ok .readU64 := by decide
@[simp] theorem decodeHead_readBytes (arg : BitVec 24) :
    decodeHead (commandWord 4#8 arg) = .ok (.readBytes arg.toNat) := by
  simp [decodeHead]
@[simp] theorem decodeHead_readSeed : decodeHead (commandWord 5#8 0#24) = .ok .readSeed := by decide
@[simp] theorem decodeHead_cloneState : decodeHead (commandWord 6#8 0#24) = .ok .cloneState := by decide
@[simp] theorem decodeHead_tryRestoreState : decodeHead (commandWord 7#8 0#24) = .ok .tryRestoreState := by decide

end Sys2Proof
end

