-- ==== Sys2Proof/Laws/State.lean ====
section
/-! SUPPORT. One lemma per field per state update, each true by rfl, so that no later proof unfolds a record update. -/

namespace Sys2Proof.Machine

@[simp] theorem raise_key (st : Status) (s : State) : (raise st s).key = s.key := rfl
@[simp] theorem raise_buf (st : Status) (s : State) : (raise st s).buf = s.buf := rfl
@[simp] theorem raise_cur (st : Status) (s : State) : (raise st s).cur = s.cur := rfl
@[simp] theorem raise_seeded (st : Status) (s : State) : (raise st s).seeded = s.seeded := rfl
@[simp] theorem raise_bk (st : Status) (s : State) : (raise st s).bk = s.bk := rfl
@[simp] theorem raise_x (st : Status) (s : State) : (raise st s).x = s.x := rfl
@[simp] theorem raise_ctr (st : Status) (s : State) : (raise st s).ctr = s.ctr := rfl
@[simp] theorem raise_cmd (st : Status) (s : State) : (raise st s).cmd = s.cmd := rfl
@[simp] theorem raise_rsp (st : Status) (s : State) : (raise st s).rsp = s.rsp ++ [statusWord st 0] := rfl

@[simp] theorem respond_key (bytes : List Byte) (s : State) : (respond bytes s).key = s.key := rfl
@[simp] theorem respond_buf (bytes : List Byte) (s : State) : (respond bytes s).buf = s.buf := rfl
@[simp] theorem respond_cur (bytes : List Byte) (s : State) : (respond bytes s).cur = s.cur := rfl
@[simp] theorem respond_seeded (bytes : List Byte) (s : State) : (respond bytes s).seeded = s.seeded := rfl
@[simp] theorem respond_bk (bytes : List Byte) (s : State) : (respond bytes s).bk = s.bk := rfl
@[simp] theorem respond_x (bytes : List Byte) (s : State) : (respond bytes s).x = s.x := rfl
@[simp] theorem respond_ctr (bytes : List Byte) (s : State) : (respond bytes s).ctr = s.ctr := rfl
@[simp] theorem respond_cmd (bytes : List Byte) (s : State) : (respond bytes s).cmd = s.cmd := rfl
@[simp] theorem respond_rsp (bytes : List Byte) (s : State) :
    (respond bytes s).rsp = s.rsp ++ statusWord .ok bytes.length :: packWords bytes := rfl

@[simp] theorem fill_key (key : Key) (s : State) : (fill key s).key = s.key := rfl
@[simp] theorem fill_buf (key : Key) (s : State) : (fill key s).buf = fillBuf key := rfl
@[simp] theorem fill_cur (key : Key) (s : State) : (fill key s).cur = s.cur := rfl
@[simp] theorem fill_seeded (key : Key) (s : State) : (fill key s).seeded = s.seeded := rfl
@[simp] theorem fill_bk (key : Key) (s : State) : (fill key s).bk = s.bk := rfl
@[simp] theorem fill_x (key : Key) (s : State) : (fill key s).x = lastRegs s.bk.val key := rfl
@[simp] theorem fill_ctr (key : Key) (s : State) : (fill key s).ctr = lastCtr s.bk.val := rfl
@[simp] theorem fill_cmd (key : Key) (s : State) : (fill key s).cmd = s.cmd := rfl
@[simp] theorem fill_rsp (key : Key) (s : State) : (fill key s).rsp = s.rsp := rfl

@[simp] theorem seedFill_key (key : Key) (s : State) : (seedFill key s).key = key := rfl
@[simp] theorem seedFill_buf (key : Key) (s : State) : (seedFill key s).buf = fillBuf key := rfl
@[simp] theorem seedFill_cur (key : Key) (s : State) : (seedFill key s).cur = 0 := rfl
@[simp] theorem seedFill_seeded (key : Key) (s : State) : (seedFill key s).seeded = true := rfl
@[simp] theorem seedFill_bk (key : Key) (s : State) : (seedFill key s).bk = s.bk := rfl
@[simp] theorem seedFill_x (key : Key) (s : State) : (seedFill key s).x = lastRegs s.bk.val key := rfl
@[simp] theorem seedFill_ctr (key : Key) (s : State) : (seedFill key s).ctr = lastCtr s.bk.val := rfl
@[simp] theorem seedFill_cmd (key : Key) (s : State) : (seedFill key s).cmd = s.cmd := rfl
@[simp] theorem seedFill_rsp (key : Key) (s : State) : (seedFill key s).rsp = s.rsp := rfl

@[simp] theorem refill_key (s : State) : (refill s).key = nextKey s.buf := rfl
@[simp] theorem refill_buf (s : State) : (refill s).buf = fillBuf (nextKey s.buf) := rfl
@[simp] theorem refill_cur (s : State) : (refill s).cur = 0 := rfl
@[simp] theorem refill_seeded (s : State) : (refill s).seeded = s.seeded := rfl
@[simp] theorem refill_bk (s : State) : (refill s).bk = s.bk := rfl
@[simp] theorem refill_x (s : State) : (refill s).x = lastRegs s.bk.val (nextKey s.buf) := rfl
@[simp] theorem refill_ctr (s : State) : (refill s).ctr = lastCtr s.bk.val := rfl
@[simp] theorem refill_cmd (s : State) : (refill s).cmd = s.cmd := rfl
@[simp] theorem refill_rsp (s : State) : (refill s).rsp = s.rsp := rfl

@[simp] theorem advance_key (n : Nat) (s : State) : (advance n s).key = s.key := rfl
@[simp] theorem advance_buf (n : Nat) (s : State) : (advance n s).buf = s.buf := rfl
@[simp] theorem advance_cur (n : Nat) (s : State) : (advance n s).cur = s.cur + BitVec.ofNat 16 n := rfl
@[simp] theorem advance_seeded (n : Nat) (s : State) : (advance n s).seeded = s.seeded := rfl
@[simp] theorem advance_bk (n : Nat) (s : State) : (advance n s).bk = s.bk := rfl
@[simp] theorem advance_x (n : Nat) (s : State) : (advance n s).x = s.x := rfl
@[simp] theorem advance_ctr (n : Nat) (s : State) : (advance n s).ctr = s.ctr := rfl
@[simp] theorem advance_cmd (n : Nat) (s : State) : (advance n s).cmd = s.cmd := rfl
@[simp] theorem advance_rsp (n : Nat) (s : State) : (advance n s).rsp = s.rsp := rfl

@[simp] theorem runKernel_key (L : Nat) (key : Key) (ctr0 : Word) (s : State) :
    (runKernel L key ctr0 s).key = s.key := rfl
@[simp] theorem runKernel_buf (L : Nat) (key : Key) (ctr0 : Word) (s : State) :
    (runKernel L key ctr0 s).buf = s.buf := rfl
@[simp] theorem runKernel_cur (L : Nat) (key : Key) (ctr0 : Word) (s : State) :
    (runKernel L key ctr0 s).cur = s.cur := rfl
@[simp] theorem runKernel_seeded (L : Nat) (key : Key) (ctr0 : Word) (s : State) :
    (runKernel L key ctr0 s).seeded = s.seeded := rfl
@[simp] theorem runKernel_bk (L : Nat) (key : Key) (ctr0 : Word) (s : State) : (runKernel L key ctr0 s).bk = s.bk := rfl
@[simp] theorem runKernel_x (L : Nat) (key : Key) (ctr0 : Word) (s : State) :
    (runKernel L key ctr0 s).x = laneRegs (kernel L key ctr0) := rfl
@[simp] theorem runKernel_ctr (L : Nat) (key : Key) (ctr0 : Word) (s : State) :
    (runKernel L key ctr0 s).ctr = ctr0 := rfl
@[simp] theorem runKernel_cmd (L : Nat) (key : Key) (ctr0 : Word) (s : State) :
    (runKernel L key ctr0 s).cmd = s.cmd := rfl
@[simp] theorem runKernel_rsp (L : Nat) (key : Key) (ctr0 : Word) (s : State) :
    (runKernel L key ctr0 s).rsp = s.rsp := rfl

@[simp] theorem placeCommand_key (words : List Word) (s : State) : (placeCommand words s).key = s.key := rfl
@[simp] theorem placeCommand_buf (words : List Word) (s : State) : (placeCommand words s).buf = s.buf := rfl
@[simp] theorem placeCommand_cur (words : List Word) (s : State) : (placeCommand words s).cur = s.cur := rfl
@[simp] theorem placeCommand_seeded (words : List Word) (s : State) : (placeCommand words s).seeded = s.seeded := rfl
@[simp] theorem placeCommand_bk (words : List Word) (s : State) : (placeCommand words s).bk = s.bk := rfl
@[simp] theorem placeCommand_x (words : List Word) (s : State) : (placeCommand words s).x = s.x := rfl
@[simp] theorem placeCommand_ctr (words : List Word) (s : State) : (placeCommand words s).ctr = s.ctr := rfl
@[simp] theorem placeCommand_cmd (words : List Word) (s : State) : (placeCommand words s).cmd = words := rfl
@[simp] theorem placeCommand_rsp (words : List Word) (s : State) : (placeCommand words s).rsp = [] := rfl

@[simp] theorem offer_key (w : Word) (s : State) : (offer w s).key = s.key := rfl
@[simp] theorem offer_buf (w : Word) (s : State) : (offer w s).buf = s.buf := rfl
@[simp] theorem offer_cur (w : Word) (s : State) : (offer w s).cur = s.cur := rfl
@[simp] theorem offer_seeded (w : Word) (s : State) : (offer w s).seeded = s.seeded := rfl
@[simp] theorem offer_bk (w : Word) (s : State) : (offer w s).bk = s.bk := rfl
@[simp] theorem offer_x (w : Word) (s : State) : (offer w s).x = s.x := rfl
@[simp] theorem offer_ctr (w : Word) (s : State) : (offer w s).ctr = s.ctr := rfl
@[simp] theorem offer_cmd (w : Word) (s : State) : (offer w s).cmd = s.cmd ++ [w] := rfl
@[simp] theorem offer_rsp (w : Word) (s : State) : (offer w s).rsp = s.rsp := rfl

@[simp] theorem takeResponse_key (s : State) : (takeResponse s).key = s.key := rfl
@[simp] theorem takeResponse_buf (s : State) : (takeResponse s).buf = s.buf := rfl
@[simp] theorem takeResponse_cur (s : State) : (takeResponse s).cur = s.cur := rfl
@[simp] theorem takeResponse_seeded (s : State) : (takeResponse s).seeded = s.seeded := rfl
@[simp] theorem takeResponse_bk (s : State) : (takeResponse s).bk = s.bk := rfl
@[simp] theorem takeResponse_x (s : State) : (takeResponse s).x = s.x := rfl
@[simp] theorem takeResponse_ctr (s : State) : (takeResponse s).ctr = s.ctr := rfl
@[simp] theorem takeResponse_cmd (s : State) : (takeResponse s).cmd = s.cmd := rfl
@[simp] theorem takeResponse_rsp (s : State) : (takeResponse s).rsp = s.rsp.tail := rfl

@[simp] theorem resetWith_key (sel : BkSel) : (State.resetWith sel).key = Vector.replicate 8 0 := rfl
@[simp] theorem resetWith_buf (sel : BkSel) : (State.resetWith sel).buf = [] := rfl
@[simp] theorem resetWith_cur (sel : BkSel) : (State.resetWith sel).cur = 0 := rfl
@[simp] theorem resetWith_seeded (sel : BkSel) : (State.resetWith sel).seeded = false := rfl
@[simp] theorem resetWith_bk (sel : BkSel) : (State.resetWith sel).bk = select sel := rfl
@[simp] theorem resetWith_x (sel : BkSel) :
    (State.resetWith sel).x = Vector.replicate 16 (List.replicate (select sel).val.count 0) := rfl
@[simp] theorem resetWith_ctr (sel : BkSel) : (State.resetWith sel).ctr = 0 := rfl
@[simp] theorem resetWith_cmd (sel : BkSel) : (State.resetWith sel).cmd = [] := rfl
@[simp] theorem resetWith_rsp (sel : BkSel) : (State.resetWith sel).rsp = [] := rfl

end Sys2Proof.Machine
end

