-- ==== Sys2Proof/Laws/Ops.lean ====
section
/-! SUPPORT. One lemma per shared operation that says what it does, cited instead of unfolding the operation. -/

namespace Sys2Proof.Machine

theorem outputLeft_eq {s : State} (h : s.cur.toNat ≤ 992) : outputLeft s = .ok (992 - s.cur.toNat) := if_pos h

theorem outputLeft_fault {s : State} (h : 992 < s.cur.toNat) : outputLeft s = .error (.cursorOutOfRange s.cur) :=
  if_neg (by simp only [outBytes]; omega)

theorem advance_cur_toNat {n : Nat} {s : State} (h : s.cur.toNat + n ≤ 992) :
    (advance n s).cur.toNat = s.cur.toNat + n := by
  simp only [advance_cur, BitVec.toNat_add, BitVec.toNat_ofNat]
  omega

@[simp] theorem advance_zero (s : State) : advance 0 s = s := by
  simp [advance]

theorem advance_advance (m n : Nat) (s : State) : advance n (advance m s) = advance (m + n) s := by
  simp [advance, BitVec.ofNat_add, BitVec.add_assoc]

theorem readAtCursor_eq {n : Nat} {s : State} (h : s.cur.toNat + n ≤ 1024) :
    readAtCursor n s = .ok (s.buf.readBytes s.cur.toNat n, advance n s) := by
  simp only [readAtCursor, memRead_eq h]

/-- The state a read is made from: refilled if `c` holds. -/
theorem ite_refill_cur_le {s : State} {c : Prop} [Decidable c] (h : s.cur.toNat ≤ 992) :
    (if c then refill s else s).cur.toNat ≤ 992 := by
  split
  · simp
  · exact h

/-- All that a word read of at most 992 bytes can do: below the fault it refills if too few bytes are left, reads the bytes
at the cursor and moves it. -/
theorem readWhole_eq {n : Nat} {s : State} (hn : n ≤ 992) (h : s.cur.toNat ≤ 992) :
    readWhole n s =
      let t := if 992 - s.cur.toNat < n then refill s else s
      .ok (t.buf.readBytes t.cur.toNat n, advance n t) := by
  simp only [readWhole, outputLeft_eq h]
  refine readAtCursor_eq ?_
  by_cases hc : 992 - s.cur.toNat < n
  · rw [if_pos hc, refill_cur]
    simp
    omega
  · rw [if_neg hc]
    omega

theorem readWhole_fault {n : Nat} {s : State} (h : 992 < s.cur.toNat) :
    readWhole n s = .error (.cursorOutOfRange s.cur) := by
  simp only [readWhole, outputLeft_fault h]

/-- All that one pass of the byte loop can do below the fault. -/
theorem readChunk_eq {n : Nat} {s : State} (h : s.cur.toNat ≤ 992) :
    readChunk n s =
      let t := if s.cur.toNat = 992 then refill s else s
      let m := min n (992 - t.cur.toNat)
      .ok (t.buf.readBytes t.cur.toNat m, advance m t) := by
  have hc : (992 - s.cur.toNat = 0) = (s.cur.toNat = 992) := by
    apply propext; omega
  simp only [readChunk, outputLeft_eq h, hc]
  refine readAtCursor_eq (n := min n (992 - (if s.cur.toNat = 992 then refill s else s).cur.toNat)) ?_
  have := ite_refill_cur_le (c := s.cur.toNat = 992) h
  omega

theorem readChunk_fault {n : Nat} {s : State} (h : 992 < s.cur.toNat) :
    readChunk n s = .error (.cursorOutOfRange s.cur) := by
  simp only [readChunk, outputLeft_fault h]

@[simp] theorem readLoop_zero (fuel : Nat) (s : State) : readLoop fuel 0 s = .ok ([], s) := by
  cases fuel <;> simp [readLoop]

/-- The loop's length never matters once it is at least the bytes wanted: a pass reads at least one byte. -/
theorem readLoop_fuel {fuel n : Nat} (s : State) (h : n ≤ fuel) : readLoop fuel n s = readOut n s := by
  unfold readOut
  induction n using Nat.strongRecOn generalizing fuel s with
  | ind n ih =>
    rcases Nat.eq_zero_or_pos n with rfl | hn
    · simp
    obtain ⟨f, rfl⟩ : ∃ f, fuel = f + 1 := ⟨fuel - 1, by omega⟩
    obtain ⟨k, rfl⟩ : ∃ k, n = k + 1 := ⟨n - 1, by omega⟩
    simp only [readLoop, Nat.add_one_ne_zero, if_false]
    rcases Nat.lt_or_ge 992 s.cur.toNat with hf | hc
    · simp only [readChunk_fault hf]
    simp only [readChunk_eq hc, readBytes_length]
    generalize ht : (if s.cur.toNat = 992 then refill s else s) = t
    have ht' : t.cur.toNat < 992 := by
      subst ht
      split
      · simp
      · omega
    have hm : 0 < min (k + 1) (992 - t.cur.toNat) := by omega
    rw [ih (k + 1 - min (k + 1) (992 - t.cur.toNat)) (by omega) _ (by omega),
      ih (k + 1 - min (k + 1) (992 - t.cur.toNat)) (by omega) (fuel := k) _ (by omega)]

@[simp] theorem readOut_zero (s : State) : readOut 0 s = .ok ([], s) := rfl

theorem readOut_fault {n : Nat} {s : State} (hn : 0 < n) (h : 992 < s.cur.toNat) :
    readOut n s = .error (.cursorOutOfRange s.cur) := by
  obtain ⟨k, rfl⟩ : ∃ k, n = k + 1 := ⟨n - 1, by omega⟩
  simp only [readOut, readLoop, Nat.add_one_ne_zero, if_false, readChunk_fault h]

/-- One pass of the byte loop, then the rest (R156). -/
theorem readOut_pos {n : Nat} {s : State} (hn : 0 < n) (h : s.cur.toNat ≤ 992) :
    readOut n s =
      let t := if s.cur.toNat = 992 then refill s else s
      let m := min n (992 - t.cur.toNat)
      match readOut (n - m) (advance m t) with
      | .ok (more, u) => .ok (t.buf.readBytes t.cur.toNat m ++ more, u)
      | .error f => .error f := by
  obtain ⟨k, rfl⟩ : ∃ k, n = k + 1 := ⟨n - 1, by omega⟩
  have : readOut (k + 1) s = readLoop (k + 1) (k + 1) s := rfl
  rw [this]
  simp only [readLoop, Nat.add_one_ne_zero, if_false, readChunk_eq h, readBytes_length]
  generalize ht : (if s.cur.toNat = 992 then refill s else s) = t
  have ht' : t.cur.toNat < 992 := by
    subst ht
    split
    · simp
    · omega
  rw [readLoop_fuel _ (by omega)]
  all_goals rfl

@[simp] theorem whenSeeded_unseeded {s : State} (h : s.seeded = false) (body : Except Fault State) :
    whenSeeded s body = .next (raise .unseeded s) := by
  simp [whenSeeded, h]

@[simp] theorem whenSeeded_seeded {s : State} (h : s.seeded = true) (body : Except Fault State) :
    whenSeeded s body = finish body := by
  simp [whenSeeded, h]

/-- A kernel run's registers hold one word per lane (R30). -/
theorem lastRegs_lanes (L : Lanes) (key : Key) (w : Fin 16) : (lastRegs L key)[w].length = L.count := by
  unfold lastRegs laneRegs
  simp

/-- A vector store inside the buffer writes its lanes' bytes and nothing else (R133). -/
theorem vstore_eq {i : Nat} {lanes : List Word} (s : State) (h : 4 * i + 4 * lanes.length ≤ 1024) :
    vstore i lanes s = .ok { s with buf := s.buf.writeBytes (4 * i) (bytesOfWords lanes) } := by
  have hb : 4 * i + (bytesOfWords lanes).length ≤ bufBytes := by rw [bytesOfWords_length]; exact h
  unfold vstore memWrite
  rw [if_pos hb]

end Sys2Proof.Machine
end

