-- ==== Sys2Proof/Laws/PerInstr.lean ====
section
/-! SUPPORT. Statements about every command as syntax, one lemma per constructor. -/

namespace Sys2Proof.Laws.LengthByHead

/-- A well-formed command is encoded in as many words as its command word alone says (R78). -/
def Statement (i : Instr) : Prop := i.wf = true → (encode i).length = commandLength ((encode i).headD 0)

theorem setSeed (seed : Key) : Statement (.setSeed seed) := by
  intro _; simp [encode, commandLength, payloadWords]
theorem readU32 : Statement .readU32 := by intro _; simp [encode, commandLength, payloadWords]
theorem readU64 : Statement .readU64 := by intro _; simp [encode, commandLength, payloadWords]
theorem readBytes (len : Nat) : Statement (.readBytes len) := by
  intro _; simp [encode, commandLength, payloadWords]
theorem readSeed : Statement .readSeed := by intro _; simp [encode, commandLength, payloadWords]
theorem cloneState : Statement .cloneState := by intro _; simp [encode, commandLength, payloadWords]
theorem tryRestoreState (seed : Key) (bytesConsumed : Word) : Statement (.tryRestoreState seed bytesConsumed) := by
  intro _; simp [encode, commandLength, payloadWords]

end Sys2Proof.Laws.LengthByHead
end

