-- ==== Sys2Proof/Laws/Step.lean ====
section
/-! SUPPORT. Everything a step can do, said once. -/

namespace Sys2Proof.Machine

/-- All that a fetch can find. -/
theorem fetch_cases (s : State) :
    (fetch s = .wait ∧ (s.rsp ≠ [] ∨ decode s.cmd = .incomplete)) ∨
    (∃ i rest, s.rsp = [] ∧ decode s.cmd = .command i rest ∧ fetch s = .command i { s with cmd := rest }) ∨
    (∃ why rest, s.rsp = [] ∧ decode s.cmd = .illegal why rest ∧ fetch s = .illegal why { s with cmd := rest }) := by
  cases hr : s.rsp with
  | cons r rs => exact .inl ⟨by simp [fetch, hr], .inl (by simp)⟩
  | nil =>
    cases hd : decode s.cmd with
    | command i rest => exact .inr (.inl ⟨i, rest, rfl, rfl, by simp [fetch, hr, hd]⟩)
    | illegal why rest => exact .inr (.inr ⟨why, rest, rfl, rfl, by simp [fetch, hr, hd]⟩)
    | incomplete => exact .inl ⟨by simp [fetch, hr, hd], .inr rfl⟩

/-- All that a step can do: wait, execute the command at the head of the port, or answer an illegal word. -/
theorem step_cases (s : State) :
    step s = .next s ∨
    (∃ i rest, s.rsp = [] ∧ decode s.cmd = .command i rest ∧ step s = exec i { s with cmd := rest }) ∨
    (∃ why rest, s.rsp = [] ∧ decode s.cmd = .illegal why rest ∧
      step s = .next (raise .illegalCommand { s with cmd := rest })) := by
  rcases fetch_cases s with ⟨h, -⟩ | ⟨i, rest, hr, hd, h⟩ | ⟨why, rest, hr, hd, h⟩
  · exact .inl (by simp [step, h])
  · exact .inr (.inl ⟨i, rest, hr, hd, by simp [step, h]⟩)
  · exact .inr (.inr ⟨why, rest, hr, hd, by simp [step, h]⟩)

end Sys2Proof.Machine
end

