-- ==== Sys2Proof/Tests/Slice0.lean ====
section
/-! SUPPORT. Tests. Every expected value is the spec's: the tables of 30_encoding.md R72 and the vectors of
95_test_vectors.md, cited by section or id. The theorems `test_witness_…` meet the hypotheses of the statements. -/

namespace Sys2Proof.Machine

/-- The test key of 95_test_vectors.md: the ASCII bytes "ABCDEFGHIJKLMNOPQRSTUVWXYZ123456". -/
def testKey : Key :=
  #v[0x44434241, 0x48474645, 0x4c4b4a49, 0x504f4e4d, 0x54535251, 0x58575655, 0x32315a59, 0x36353433]

/-- A core seeded with the test key, with its cursor at `c`. -/
def seededAt (c : Half) : State := { seedFill testKey State.reset with cur := c }

/-- The last bytes of the buffer of the test key, from byte 970 on: bytes 970 to 991 as E17 gives them, and the NextKey
Region as section 4 gives it. -/
def tailBytes : List Byte :=
  [0x1e, 0xb8, 0xa4, 0xd0, 0xf7, 0xcc, 0x0e, 0x43, 0x2c, 0x6b, 0x13, 0xea, 0x3f, 0x30, 0x71, 0xc8, 0x06, 0x9c, 0x13, 0x6c,
   0x1d, 0x86, 0x3e, 0x15, 0x0e, 0xac, 0x48, 0x6b, 0x34, 0x4f, 0x11, 0x61, 0xa8, 0x52, 0xcd, 0x35, 0x9a, 0x74, 0x72, 0x8c,
   0x58, 0x4f, 0x9c, 0x5d, 0x10, 0xdf, 0xf6, 0x31, 0xea, 0x11, 0x18, 0x06, 0x8a, 0xaa]

/-- A small seeded core near the end of its Output Region: only the last bytes of its buffer are listed. -/
def nearEnd (c : Half) : State :=
  { State.reset with seeded := true, key := testKey, cur := c, buf := Memory.ofBytesAt 970 tailBytes }

/-- The response words an outcome leaves, empty for a stop. -/
def rspOf : Host.Outcome State Fault Refusal → List Word
  | .next s => s.rsp
  | .fault _ => []
  | .refused _ => []

/-- The cursor an outcome leaves, 65535 for a stop. -/
def curOf : Host.Outcome State Fault Refusal → Nat
  | .next s => s.cur.toNat
  | .fault _ => 65535
  | .refused _ => 65535

/-- The key an outcome leaves, all zeros for a stop. -/
def keyOf : Host.Outcome State Fault Refusal → Key
  | .next s => s.key
  | .fault _ => Vector.replicate 8 0
  | .refused _ => Vector.replicate 8 0

/-! ### Well-formedness -/

/-- The one check: a length above LEN_MAX has no encoding (R5). -/
theorem test_wf_refuses_long_length : Instr.wf (.readBytes 16777216) = false := by decide
theorem test_wf_admits_longest_length : Instr.wf (.readBytes 16777215) = true := by decide

/-! ### Decoding (R72, R79; 95_test_vectors.md section 9) -/

theorem test_decode_set_seed :
    decode [0x00000001, 0x44434241, 0x48474645, 0x4c4b4a49, 0x504f4e4d, 0x54535251, 0x58575655, 0x32315a59, 0x36353433] =
      .command (.setSeed testKey) [] := by decide
theorem test_decode_read_u32 : decode [0x00000002, 0x00000003] = .command .readU32 [0x00000003] := by decide
theorem test_decode_read_u64 : decode [0x00000003] = .command .readU64 [] := by decide
theorem test_decode_read_bytes : decode [0x0003dd04] = .command (.readBytes 989) [] := by decide
theorem test_decode_read_bytes_longest : decode [0xffffff04] = .command (.readBytes 16777215) [] := by decide
theorem test_decode_read_seed : decode [0x00000005] = .command .readSeed [] := by decide
theorem test_decode_clone_state : decode [0x00000006] = .command .cloneState [] := by decide
theorem test_decode_try_restore_state :
    decode [0x00000007, 0x44434241, 0x48474645, 0x4c4b4a49, 0x504f4e4d, 0x54535251, 0x58575655, 0x32315a59, 0x36353433,
      0x00010005] = .command (.tryRestoreState testKey 0x00010005) [] := by decide
/-- P4: 0x00000101 is one illegal word; what follows it is decoded as commands. -/
theorem test_decode_illegal :
    decode [0x00000101, 0x00000002] = .illegal (.nonzeroArg 0x01 1) [0x00000002] ∧
    decode [0x00000102] = .illegal (.nonzeroArg 0x02 1) [] ∧ decode [0x00000000] = .illegal (.reservedOpcode 0x00) [] ∧
    decode [0x00000008] = .illegal (.reservedOpcode 0x08) [] ∧
    decode [0xffffffff] = .illegal (.reservedOpcode 0xff) [] := by decide
theorem test_encode_words :
    encode (.readBytes 989) = [0x0003dd04] ∧ encode .cloneState = [0x00000006] ∧
    encode (.tryRestoreState testKey 5) = [0x00000007, 0x44434241, 0x48474645, 0x4c4b4a49, 0x504f4e4d, 0x54535251,
      0x58575655, 0x32315a59, 0x36353433, 0x00000005] := by decide
/-- The rows of spec/opcode_table.json give their command word's 32 bits; operand words above it are zero. -/
theorem test_table_words :
    decodeTableWord 32 1 = some (.setSeed (Vector.replicate 8 0)) ∧ decodeTableWord 32 0x00000504 = some (.readBytes 5) ∧
    decodeTableWord 32 7 = some (.tryRestoreState (Vector.replicate 8 0) 0) ∧ decodeTableWord 32 0 = none := by decide
theorem test_fetch_word_is_next_command :
    fetch (State.reset.withFetchWord 32 0x00000504) = .command (.readBytes 5) State.reset ∧
    fetch (State.reset.withFetchWord 32 1) = .command (.setSeed (Vector.replicate 8 0)) State.reset := ⟨rfl, rfl⟩

/-! ### Byte order and packing (R8, R51, R63) -/

/-- R81's ASCII form of the test seed (R73). -/
theorem test_seed_bytes :
    keyOfBytes #v[65, 66, 67, 68, 69, 70, 71, 72, 73, 74, 75, 76, 77, 78, 79, 80, 81, 82, 83, 84, 85, 86, 87, 88, 89, 90,
      49, 50, 51, 52, 53, 54] = testKey := by decide
/-- READ_BYTES 3 returns a5 16 46 in the word 0x004616a5 (R156). -/
theorem test_pack_pads_with_zero : packWords [0xa5, 0x16, 0x46] = [0x004616a5] := by decide

/-! ### Primitives, block and kernels (95_test_vectors.md sections 2 to 4) -/

theorem test_add_wraps : add32 0xffffffff 0x00000001 = 0 ∧ add32 0x11111111 0x01020304 = 0x12131415 := by decide
theorem test_rotl :
    rotl32 0x13305172 16 = 0x51721330 ∧ rotl32 0xedfd8177 12 = 0xd8177edf ∧ rotl32 0xbb5881c4 8 = 0x5881c4bb ∧
    rotl32 0x80000001 7 = 0x000000c0 := by decide
theorem test_quarter_round :
    quarterRound scalarArx 0x11111111 0x01020304 0x9b8d6f43 0x01234567 =
      (0xea2a92f4, 0xcb1cf8ce, 0x4581472e, 0x5881c4bb) := by decide
theorem test_quarter_round_all_ones :
    quarterRound scalarArx 0xffffffff 0xffffffff 0xffffffff 0xffffffff =
      (0xf0000ffd, 0x88790878, 0x0110fdef, 0x010ffdf0) := by decide
theorem test_column_round :
    columnRound scalarArx (initState scalarArx testKey 0) =
      #v[0x51580f51, 0x54e73f67, 0x2c5275d9, 0x558eaf5c, 0x00472253, 0x18a30747, 0xfcb51fda, 0x8aec09d1,
         0x0da4daef, 0x574ed2ba, 0xd35d9461, 0x390b2388, 0xfeaae2eb, 0x544400fe, 0x29b0745b, 0x4f1433e6] := by
  decide +kernel
theorem test_block :
    block testKey 0 =
      #v[0x3d4616a5, 0x418d287c, 0x2d1c16ad, 0x128b5b3e, 0x7d6ceea6, 0x181ee01f, 0xcc2ad268, 0x92c46661,
         0x7f4e2e7e, 0x34eabe20, 0x113d6bf2, 0xdb21d9e1, 0xda3750a5, 0xe3d7ee49, 0x392495a4, 0x5dbae493] := by
  decide +kernel
theorem test_block_top_counter :
    block (Vector.replicate 8 0) 0xffffffff =
      #v[0xd64729cf, 0xb8f8b907, 0xb208f8ae, 0x8b170d44, 0x2bc08881, 0x31dca610, 0x5d4e9d93, 0xbbd39b31,
         0x960b28ee, 0xc167d58a, 0x9f0803f1, 0xd146734f, 0xc6dea5ff, 0x6c90af0d, 0x9b884e3c, 0x49009ec4] := by
  decide +kernel
theorem test_lanes :
    vadd (L := 4) #v[0xffffffff, 1, 2, 3] #v[1, 1, 1, 1] = #v[0, 2, 3, 4] ∧
    vctr 4 0xfffffffe = #v[0xfffffffe, 0xffffffff, 0, 1] := by decide
theorem test_kernel_4 : (kernel 4 testKey 4)[15][2] = 0x2032a71a := by decide +kernel
theorem test_kernel_8 : (kernel 8 testKey 8)[0][5] = 0x15cb30ce := by decide +kernel
/-- Rows of group 0 and group 2, and the NextKey Region. -/
theorem test_fill_layout :
    (fillBuf testKey).readWord 4 = 0x418d287c ∧ (fillBuf testKey).readWord 133 = 0xeab55cbc ∧
    nextKey (fillBuf testKey) =
      #v[0xac0e153e, 0x4f346b48, 0x52a86111, 0x749a35cd, 0x4f588c72, 0xdf105d9c, 0x11ea31f6, 0xaa8a0618] := by
  decide +kernel
/-- R133's example: four lanes at word 4 become bytes 16 to 31. -/
theorem test_vstore :
    (match vstore 4 [0x418d287c, 0x8c2599d9, 0x7edc5cd6, 0x7ee07e03] State.reset with
      | .ok t => t.buf.readBytes 16 16
      | .error _ => []) =
      [0x7c, 0x28, 0x8d, 0x41, 0xd9, 0x99, 0x25, 0x8c, 0xd6, 0x5c, 0xdc, 0x7e, 0x03, 0x7e, 0xe0, 0x7e] := by decide

/-! ### Commands, one each (95_test_vectors.md sections 5, 6 and 9) -/

/-- P1, step 1. -/
theorem test_set_seed :
    rspOf (exec (.setSeed testKey) State.reset) = [0x00000000] ∧ keyOf (exec (.setSeed testKey) State.reset) = testKey ∧
    curOf (exec (.setSeed testKey) (nearEnd 992)) = 0 := by decide +kernel
/-- E3: exactly 4 bytes left. -/
theorem test_read_u32_last :
    rspOf (exec .readU32 (nearEnd 988)) = [0x00000400, 0x861d6c13] ∧ curOf (exec .readU32 (nearEnd 988)) = 992 := by
  decide +kernel
/-- E4: 3 bytes left, discarded. -/
theorem test_read_u32_skips :
    rspOf (exec .readU32 (nearEnd 989)) = [0x00000400, 0xe05e0487] ∧ curOf (exec .readU32 (nearEnd 989)) = 4 := by
  decide +kernel
/-- E8: exactly 8 bytes left. -/
theorem test_read_u64_last :
    rspOf (exec .readU64 (nearEnd 984)) = [0x00000800, 0x9c06c871, 0x861d6c13] ∧ curOf (exec .readU64 (nearEnd 984)) = 992 := by
  decide +kernel
/-- E9: 7 bytes left, discarded. -/
theorem test_read_u64_skips :
    rspOf (exec .readU64 (nearEnd 985)) = [0x00000800, 0xe05e0487, 0x5f41df72] ∧
    curOf (exec .readU64 (nearEnd 985)) = 8 := by decide +kernel
/-- E14: a byte read keeps the bytes a word read skips. -/
theorem test_read_bytes_crosses :
    rspOf (exec (.readBytes 7) (nearEnd 989)) = [0x00000700, 0x87861d6c, 0x00e05e04] ∧
    curOf (exec (.readBytes 7) (nearEnd 989)) = 4 := by decide +kernel
/-- E12: the refill is lazy. -/
theorem test_read_bytes_lazy :
    rspOf (exec (.readBytes 0) (nearEnd 992)) = [0x00000000] ∧ curOf (exec (.readBytes 0) (nearEnd 992)) = 992 ∧
    rspOf (exec (.readBytes 1) (nearEnd 992)) = [0x00000100, 0x00000087] := by decide +kernel
/-- E17. -/
theorem test_read_seed_crosses :
    rspOf (exec .readSeed (nearEnd 970)) =
      [0x00002000, 0xd0a4b81e, 0x430eccf7, 0xea136b2c, 0xc871303f, 0x6c139c06, 0x0487861d, 0xdf72e05e, 0x6b1d5f41] ∧
    curOf (exec .readSeed (nearEnd 970)) = 10 := by decide +kernel
/-- P3, step 3, and the lazy snapshot of R180. -/
theorem test_clone_state :
    rspOf (exec .cloneState (nearEnd 5)) = [0x00002400, 0x44434241, 0x48474645, 0x4c4b4a49, 0x504f4e4d, 0x54535251,
      0x58575655, 0x32315a59, 0x36353433, 0x00000005] ∧ curOf (exec .cloneState (nearEnd 992)) = 992 := by decide +kernel
/-- S6, S7: no truncation, and the core stays unseeded. -/
theorem test_try_restore_state_rejects :
    exec (.tryRestoreState testKey 0x00010005) State.reset = .next { State.reset with rsp := [0x00000001] } ∧
    exec (.tryRestoreState testKey 993) State.reset = .next { State.reset with rsp := [0x00000001] } := ⟨rfl, rfl⟩
/-- S4: a count of 992 is valid. -/
theorem test_try_restore_state_admits :
    rspOf (exec (.tryRestoreState testKey 992) State.reset) = [0x00000000] ∧
    curOf (exec (.tryRestoreState testKey 992) State.reset) = 992 ∧
    keyOf (exec (.tryRestoreState testKey 992) State.reset) = testKey := by decide +kernel
/-- P4: Unseeded, IllegalCommand, and their priority, through the ports. -/
theorem test_errors_before_seeding :
    rspOf (step (State.reset.withFetchWord 32 2)) = [0x00000003] ∧
    rspOf (step (State.reset.withFetchWord 32 0x102)) = [0x00000002] ∧
    rspOf (step (State.reset.withFetchWord 32 8)) = [0x00000002] := by decide +kernel

/-! ### Witnesses: states and operands that meet the hypotheses of the statements, at the boundaries of their clauses -/

/-- A freshly seeded core, its cursor anywhere in 0 to 992, meets the invariant. -/
theorem test_seededAt_good (c : Half) (h : c.toNat ≤ 992) : Good (seededAt c) :=
  ⟨wf_fillBuf _, fun _ => h, fun _ => rfl, fun w => lastRegs_lanes _ _ w⟩

/-- The same core with a command word offered to it. -/
def offered (c : Half) (ws : List Word) : State := { seededAt c with cmd := ws }

theorem test_offered_good (c : Half) (ws : List Word) (h : c.toNat ≤ 992) : Good (offered c ws) :=
  ⟨wf_fillBuf _, fun _ => h, fun _ => rfl, fun w => lastRegs_lanes _ _ w⟩

/-- StepKeepsInvariant, StepNeverStops, OnlyResetWritesBackend, StepRunsDecodedCommand, PortsAreLosslessStreams: a step
that performs CLONE_STATE on a seeded core at CUR = 992. -/
theorem test_witness_step :
    Good (offered 992 [0x00000006]) ∧ (offered 992 [0x00000006]).seeded = true ∧ (offered 992 [0x00000006]).rsp = [] ∧
    decode (offered 992 [0x00000006]).cmd = .command .cloneState [] ∧
    ∃ t, step (offered 992 [0x00000006]) = .next t ∧ t.cmd = [] :=
  ⟨test_offered_good _ _ (by decide), rfl, rfl, by decide, _, rfl, rfl⟩

/-- LogicalStateTransitions, NoFillNoStore: a command without a fill, on a seeded core and on an unseeded one. -/
theorem test_witness_no_fill :
    Good (seededAt 988) ∧ fillCount .cloneState (seededAt 988) = 0 ∧ (∃ t, exec .cloneState (seededAt 988) = .next t) ∧
    fillCount .readU32 (seededAt 988) = 0 ∧ (∃ t, exec .readU32 (seededAt 988) = .next t) ∧
    fillCount .readU32 State.reset = 0 ∧ ∃ t, exec .readU32 State.reset = .next t :=
  ⟨test_seededAt_good _ (by decide), rfl, ⟨_, rfl⟩, by decide, ⟨_, rfl⟩, by decide, _, rfl⟩

/-- FillLeavesFilledBuffer, ReadsRatchetByRefillCount, LogicalStateTransitions: commands with one fill. -/
theorem test_witness_fill :
    Good (seededAt 989) ∧ isRead .readU32 = true ∧ fillCount .readU32 (seededAt 989) = 1 ∧
    (∃ t, exec .readU32 (seededAt 989) = .next t) ∧ fillCount (.setSeed testKey) State.reset = 1 ∧
    ∃ t, exec (.setSeed testKey) State.reset = .next t ∧ t.seeded = true :=
  ⟨test_seededAt_good _ (by decide), rfl, by decide, ⟨_, rfl⟩, rfl, _, rfl, rfl⟩

/-- DecodeEncode, WordByWordDelivery, OneResponsePerCommand: well-formed commands at the ends of their operands, on a core
with empty ports. -/
theorem test_witness_well_formed :
    Instr.wf (.readBytes 0) = true ∧ Instr.wf (.readBytes 16777215) = true ∧
    Instr.wf (.tryRestoreState testKey 0xffffffff) = true ∧ State.reset.cmd = [] ∧ State.reset.rsp = [] ∧
    ∃ t, exec (.readBytes 16777215) State.reset = .next t := ⟨rfl, by decide, rfl, rfl, rfl, _, rfl⟩

/-- DecodedCommandHasOneSpelling: a list of words that decodes to a command, with a word behind it. -/
theorem test_witness_decoded : decode [0x00000304, 0x00000101] = .command (.readBytes 3) [0x00000101] := by decide

/-- IllegalWordRaises: words at the edges of its two clauses. -/
theorem test_witness_illegal :
    (offered 0 [0x00000000]).rsp = [] ∧ (offered 0 [0x00000000]).cmd = 0x00000000 :: [] ∧
    (0x00000000 : Word).toNat % 256 = 0 ∧ 8 ≤ (0x00000008 : Word).toNat % 256 ∧ 8 ≤ (0xffffffff : Word).toNat % 256 ∧
    ((0x00000107 : Word).toNat % 256 ≠ 4 ∧ (0x00000107 : Word).toNat / 256 ≠ 0) ∧
    ¬ ((0xffffff04 : Word).toNat % 256 = 0 ∨ 8 ≤ (0xffffff04 : Word).toNat % 256 ∨
      ((0xffffff04 : Word).toNat % 256 ≠ 4 ∧ (0xffffff04 : Word).toNat / 256 ≠ 0)) ∧
    ¬ ((0x00000001 : Word).toNat % 256 = 0 ∨ 8 ≤ (0x00000001 : Word).toNat % 256 ∨
      ((0x00000001 : Word).toNat % 256 ≠ 4 ∧ (0x00000001 : Word).toNat / 256 ≠ 0)) :=
  ⟨rfl, rfl, by decide, by decide, by decide, by decide, by decide, by decide⟩

/-- IncompleteCommandWaits: no word, and all words but the last. -/
theorem test_witness_incomplete :
    0 < (encode .readU32).length ∧ (offered 0 []).cmd = (encode .readU32).take 0 ∧ 8 < (encode (.setSeed testKey)).length ∧
    9 < (encode (.tryRestoreState testKey 5)).length ∧
    (offered 0 (1 :: testKey.toList.take 7)).cmd = (encode (.setSeed testKey)).take 8 := by decide +kernel

/-- UntakenResponseHolds: a response word that is not taken, with a command behind it. -/
theorem test_witness_untaken : { offered 0 [0x00000002] with rsp := [0x00000000] }.rsp ≠ [] := by decide

/-- ErrorsChangeNothing, UnseededRaises: each error status a command can end in. -/
theorem test_witness_errors :
    Status.unseeded ≠ .ok ∧ Status.invalidSnapshot ≠ .ok ∧ isRead (.readBytes 0) = true ∧ State.reset.seeded = false ∧
    exec (.readBytes 0) State.reset = .next { State.reset with rsp := [statusWord .unseeded 0] } ∧
    exec (.tryRestoreState testKey 993) State.reset = .next { State.reset with rsp := [statusWord .invalidSnapshot 0] } ∧
    (∃ t, exec (.setSeed testKey) State.reset = .next t) ∧ ∃ t, exec (.tryRestoreState testKey 992) State.reset = .next t :=
  ⟨by decide, by decide, rfl, rfl, rfl, rfl, ⟨_, rfl⟩, _, rfl⟩

/-- SetSeedResult, RefillRatchetsThenFills, BufferLayout: the first and the last place of the layout. -/
theorem test_witness_layout_places : (0 < 4 ∧ 0 < 16) ∧ 64 * 3 + 4 * 15 + 3 = 255 ∧ 248 + 7 = 255 := by decide

/-- ReadU32Result, WordAndByteReadsAgree: the ends of each clause's cursor range. -/
theorem test_witness_read_u32 :
    State.reset.seeded = false ∧ (seededAt 988).seeded = true ∧ (seededAt 0).cur.toNat ≤ 988 ∧
    (seededAt 988).cur.toNat ≤ 988 ∧ 989 ≤ (seededAt 989).cur.toNat ∧ (seededAt 992).cur.toNat ≤ 992 ∧
    (seededAt 992).cur.toNat = 992 := by decide

/-- ReadU64Result, WordAndByteReadsAgree: the ends of each clause's cursor range. -/
theorem test_witness_read_u64 :
    State.reset.seeded = false ∧ (seededAt 984).seeded = true ∧ (seededAt 984).cur.toNat ≤ 984 ∧
    985 ≤ (seededAt 985).cur.toNat ∧ (seededAt 991).cur.toNat ≤ 992 ∧ (seededAt 992).cur.toNat ≤ 992 := by decide

/-- ReadBytesResult, ReadBytesZeroChangesNothing, ReadSeedResult: lengths 0 and LEN_MAX at cursors 0 and 992. -/
theorem test_witness_read_bytes :
    Good (seededAt 0) ∧ Good (seededAt 992) ∧ (seededAt 992).seeded = true ∧ 0 ≤ lenMax ∧ 16777215 ≤ lenMax :=
  ⟨test_seededAt_good _ (by decide), test_seededAt_good _ (by decide), rfl, by decide, by decide⟩

/-- CloneStateResult, SnapshotRoundTrip: both clauses, the second at CUR = 992 and, for the clamp, above it. -/
theorem test_witness_clone_state :
    State.reset.seeded = false ∧ Good (seededAt 992) ∧ (seededAt 992).seeded = true ∧ (seededAt 993).seeded = true ∧
    (seededAt 993).cur.toNat = 993 := ⟨rfl, test_seededAt_good _ (by decide), rfl, rfl, by decide⟩

/-- TryRestoreStateResult, RejectedRestoreIsInvisible: the counts where the clauses meet, and a count a truncation would
admit (S6). -/
theorem test_witness_try_restore_state :
    (992 : Word).toNat ≤ 992 ∧ 992 < (993 : Word).toNat ∧ 992 < (0x00010005 : Word).toNat := by decide

/-- ByteReadsReturnStream: lengths that are all encodable, 0 and LEN_MAX among them. -/
theorem test_witness_lengths : ∀ n ∈ [0, 989, 16777215], n ≤ lenMax := by decide

/-- LikeEnginesAnswerAlike: two cores alike but for their response ports, with the cursor at the end of its range. -/
theorem test_witness_like :
    SameEngine (seededAt 992) { seededAt 992 with rsp := [0x00000000] } ∧ ∃ t, execAll [.cloneState] (seededAt 992) = .next t :=
  ⟨⟨rfl, rfl, rfl, rfl⟩, _, rfl⟩

/-- LikeEnginesAnswerAlike's fault clause: two seeded cores with the least cursor above 992, and a read. -/
theorem test_witness_like_fault :
    SameEngine (seededAt 993) { seededAt 993 with rsp := [0x00000000] } ∧ (seededAt 993).seeded = true ∧
    992 < (seededAt 993).cur.toNat ∧ execAll [.readU32] (seededAt 993) = .fault (.cursorOutOfRange 993) ∧
    execAll [.readU32] { seededAt 993 with rsp := [0x00000000] } = .fault (.cursorOutOfRange 993) :=
  ⟨⟨rfl, rfl, rfl, rfl⟩, rfl, by decide, rfl, rfl⟩

/-- R70's streams: a response of two words loses its oldest word alone. -/
theorem test_take_oldest :
    (takeResponse { State.reset with rsp := [0x00000400, 0x3d4616a5] }).rsp = [0x3d4616a5] ∧
    (offer 0x00000003 { State.reset with cmd := [0x00000002] }).cmd = [0x00000002, 0x00000003] := by decide

/-- ControlPathIgnoresSecrets: two restores with different seeds, on two cores with different keys. -/
theorem test_witness_control :
    publicPart (.tryRestoreState testKey 5) = publicPart (.tryRestoreState (Vector.replicate 8 0) 5) ∧
    (seededAt 992).seeded = (seedFill (Vector.replicate 8 0) State.reset).seeded ∧
    (seededAt 0).cur = (seedFill (Vector.replicate 8 0) State.reset).cur ∧ (seededAt 992).cur.toNat ≤ 992 :=
  ⟨rfl, rfl, rfl, by decide⟩

/-- RotationMovesBits: the four amounts, and the lowest and the highest bit. -/
theorem test_witness_rotation :
    16 ∈ [16, 12, 8, 7] ∧ 12 ∈ [16, 12, 8, 7] ∧ 8 ∈ [16, 12, 8, 7] ∧ 7 ∈ [16, 12, 8, 7] ∧ 0 < 32 ∧ 31 < 32 := by decide

/-- DisjointQuarterRoundsCommute: two columns. -/
theorem test_witness_disjoint : ([0, 4, 8, 12, 1, 5, 9, 13] : List (Fin 16)).Nodup := by decide

/-- FeedForwardAddsKeyOnly: the words at the ends of its two clauses. -/
theorem test_witness_feed_forward : (4 ≤ 4 ∧ 11 < 12) ∧ ¬ (4 ≤ 3 ∧ 3 < 12) ∧ ¬ (4 ≤ 12 ∧ 12 < 12) ∧ 15 < 16 := by decide

/-- LaneEquivalence: the first and the last lane of the widest kernel. -/
theorem test_witness_lanes : 0 < 16 ∧ 15 < 16 ∧ 0 < 8 ∧ 7 < 8 := by decide

/-- AllBackendsFillAlike: a canonical buffer with nothing listed, and one full of words. -/
theorem test_witness_canonical : State.reset.buf.wf = true ∧ (seededAt 0).buf.wf = true := ⟨rfl, wf_fillBuf _⟩

/-- SelectionRule: an instance has the 8-lane kernel or not, and the 4-lane kernel or not; both flags are free. -/
theorem test_witness_selection :
    (Config.avail .eight = true ∨ Config.avail .eight = false) ∧ (Config.avail .four = true ∨ Config.avail .four = false) := by
  cases Config.avail .eight <;> cases Config.avail .four <;> decide

/-- PortPacking: the bytes of a string of 5 bytes end in the middle of its second word. -/
theorem test_witness_packing :
    0 < ([1, 2, 3, 4, 5] : List Byte).length ∧ ([1, 2, 3, 4, 5] : List Byte).length ≤ 5 ∧
    7 < 4 * (packWords [1, 2, 3, 4, 5]).length := by decide

/-- SeedFormsAreEquivalent: the test seed's 32 bytes are its key's. -/
theorem test_witness_seed_forms :
    (#v[65, 66, 67, 68, 69, 70, 71, 72, 73, 74, 75, 76, 77, 78, 79, 80, 81, 82, 83, 84, 85, 86, 87, 88, 89, 90,
      49, 50, 51, 52, 53, 54] : Vector Byte 32).toList = bytesOfKey testKey := by decide

/-- PseudoInstructionsExpand: nine result words, and lengths on both sides of LEN_MAX. -/
theorem test_witness_pseudo :
    (#v[1, 2, 3, 4, 5, 6, 7, 8, 992] : Vector Word 9).toList = (#v[1, 2, 3, 4, 5, 6, 7, 8] : Key).toList ++ [992] ∧
    splitLength 16777215 = [16777215] ∧ splitLength 16777216 = [16777215, 1] := by decide +kernel

/-- CoresAreIndependent: moves at two different cores of a system of two. -/
theorem test_witness_cores :
    0 ≠ 1 ∧ moveAt 0 (.offer 2) [State.reset, seededAt 5] = .next [offer 2 State.reset, seededAt 5] ∧
    moveAt 1 (.offer 6) [offer 2 State.reset, seededAt 5] = .next [offer 2 State.reset, offer 6 (seededAt 5)] :=
  ⟨by decide, rfl, rfl⟩

end Sys2Proof.Machine
end

/-! SUPPORT and PROOFS for the family 10_state.md: the state of a core, its invariant, and engines that answer alike. -/

namespace Sys2Proof.Machine

/-! ### Every command is an error or a body with a response -/

/-- The error a command raises in place of its body (R190, R193, R194). -/
def commandError : Instr → State → Option Status
  | .setSeed _, _ => none
  | .tryRestoreState _ bc, _ => if outBytes < bc.toNat then some .invalidSnapshot else none
  | .readU32, s | .readU64, s | .readBytes _, s | .readSeed, s | .cloneState, s =>
    if s.seeded = true then none else some .unseeded

/-- The result bytes of a command that raises no error, and the state it leaves but for its response. -/
def commandBody : Instr → State → Except Fault (List Byte × State)
  | .setSeed seed, s => .ok ([], seedFill seed s)
  | .readU32, s => (readWhole 4 s).map fun p => (bytes32 (le32 p.1), p.2)
  | .readU64, s => (readWhole 8 s).map fun p => (bytes64 (le64 p.1), p.2)
  | .readBytes len, s => readOut len s
  | .readSeed, s => readOut 32 s
  | .cloneState, s => .ok (bytesOfKey s.key ++ bytes32 (BitVec.ofNat 32 (snapshotCount s)), s)
  | .tryRestoreState seed bc, s => .ok ([], { seedFill seed s with cur := bc.setWidth 16 })

@[simp] theorem finish_respondRead_ok (bytes : List Byte) (t : State) :
    finish (respondRead (.ok (bytes, t))) = .next (respond bytes t) := rfl

@[simp] theorem finish_respondRead_error (f : Fault) : finish (respondRead (.error f)) = .fault f := rfl

/-- A command with an error answers it and does nothing else. -/
theorem exec_of_error {i : Instr} {s : State} {st : Status} (h : commandError i s = some st) :
    exec i s = .next (raise st s) := by
  cases i with
  | setSeed seed => simp [commandError] at h
  | tryRestoreState seed bc =>
    simp only [commandError, Option.ite_none_right_eq_some, Option.some.injEq] at h
    obtain ⟨hbc, rfl⟩ := h
    exact if_pos hbc
  | _ =>
    simp only [commandError, Option.ite_none_left_eq_some, Option.some.injEq] at h
    obtain ⟨hs, rfl⟩ := h
    exact if_neg hs

/-- A read without an error is made on a seeded core (R193). -/
theorem seeded_of_isRead {i : Instr} {s : State} (hi : isRead i = true) (h : commandError i s = none) :
    s.seeded = true := by
  cases i with
  | setSeed | cloneState | tryRestoreState => exact nomatch hi
  | _ => simpa [commandError] using h

/-- A command without an error runs its body and responds with the result. -/
theorem exec_of_body {i : Instr} {s : State} (h : commandError i s = none) :
    exec i s = finish (respondRead (commandBody i s)) := by
  cases i with
  | setSeed seed => rfl
  | tryRestoreState seed bc =>
    simp only [commandError, ite_eq_right_iff, reduceCtorEq, imp_false] at h
    exact if_neg h
  | readU32 =>
    refine (whenSeeded_seeded (seeded_of_isRead rfl h) _).trans ?_
    cases hr : readWhole 4 s <;> simp only [commandBody, hr] <;> rfl
  | readU64 =>
    refine (whenSeeded_seeded (seeded_of_isRead rfl h) _).trans ?_
    cases hr : readWhole 8 s <;> simp only [commandBody, hr] <;> rfl
  | _ =>
    simp only [commandError, ite_eq_left_iff, reduceCtorEq, imp_false, not_not] at h
    exact if_pos h

/-! ### The byte loop, one pass at a time -/

/-- The state a pass of the byte loop reads from: refilled if no byte is left (R156). -/
def chunkStart (s : State) : State := if s.cur.toNat = 992 then refill s else s

/-- How many of `n` wanted bytes a pass of the byte loop reads (R156). -/
def chunkSize (n : Nat) (s : State) : Nat := min n (992 - (chunkStart s).cur.toNat)

theorem chunkStart_cur_lt {s : State} (h : s.cur.toNat ≤ 992) : (chunkStart s).cur.toNat < 992 := by
  unfold chunkStart
  split
  · simp
  · omega

theorem chunkSize_pos {n : Nat} {s : State} (hn : 0 < n) (h : s.cur.toNat ≤ 992) : 0 < chunkSize n s := by
  have := chunkStart_cur_lt h
  unfold chunkSize
  omega

theorem chunkSize_le {n : Nat} {s : State} (h : s.cur.toNat ≤ 992) :
    (chunkStart s).cur.toNat + chunkSize n s ≤ 992 := by
  have := chunkStart_cur_lt h
  unfold chunkSize
  omega

/-- The state a pass of the byte loop for `n` bytes leaves (R156). -/
def afterChunk (n : Nat) (s : State) : State := advance (chunkSize n s) (chunkStart s)

theorem afterChunk_cur_le {n : Nat} {s : State} (h : s.cur.toNat ≤ 992) : (afterChunk n s).cur.toNat ≤ 992 := by
  rw [afterChunk, advance_cur_toNat (chunkSize_le h)]
  exact chunkSize_le h

/-- A byte read is its first pass, then a read of what is left (R156). -/
theorem readOut_of_rest {n : Nat} {s u : State} {more : List Byte} (hn : 0 < n) (h : s.cur.toNat ≤ 992)
    (hrest : readOut (n - chunkSize n s) (afterChunk n s) = .ok (more, u)) :
    readOut n s = .ok ((chunkStart s).buf.readBytes (chunkStart s).cur.toNat (chunkSize n s) ++ more, u) := by
  simp only [afterChunk, chunkSize, chunkStart] at hrest
  simp only [readOut_pos hn h, hrest, chunkSize, chunkStart]

/-- Induction along the passes of the byte loop. -/
theorem readOut_induction {motive : (n : Nat) → (s : State) → s.cur.toNat ≤ 992 → Prop}
    (zero : ∀ s h, motive 0 s h)
    (pass : ∀ n s, 0 < n → ∀ h, motive (n - chunkSize n s) (afterChunk n s) (afterChunk_cur_le h) → motive n s h)
    (n : Nat) (s : State) (h : s.cur.toNat ≤ 992) : motive n s h := by
  induction n using Nat.strongRecOn generalizing s with
  | ind n ih =>
    rcases Nat.eq_zero_or_pos n with rfl | hn
    · exact zero s h
    · have := chunkSize_pos hn h
      exact pass n s hn h (ih _ (by omega) _ _)

/-! ### What a command can do to the engine -/

/-- The ways a command's body comes from one state to another: refills, moves of the cursor inside the Output Region, and
a seeding with a cursor inside it (R20, R23, R24). -/
inductive EngineSteps : State → State → Prop where
  | refl (s : State) : EngineSteps s s
  | refill {s t : State} : EngineSteps (refill s) t → EngineSteps s t
  | advance {s t : State} (n : Nat) : s.cur.toNat + n ≤ 992 → EngineSteps (advance n s) t → EngineSteps s t
  | seed (key : Key) (c : Half) (s : State) : c.toNat ≤ 992 → EngineSteps s { seedFill key s with cur := c }

theorem EngineSteps.ite_refill {s t : State} {c : Prop} [Decidable c]
    (h : EngineSteps (if c then Machine.refill s else s) t) : EngineSteps s t := by
  split at h
  · exact h.refill
  · exact h

/-- What a command's body comes to from `s`: a result after work on the engine, or, with CUR above 992, a stop. -/
def WorksOrStops (s : State) (p : Except Fault (List Byte × State)) : Prop :=
  (∃ bytes t, p = .ok (bytes, t) ∧ EngineSteps s t) ∨ (992 < s.cur.toNat ∧ p = .error (.cursorOutOfRange s.cur))

theorem WorksOrStops.map {s : State} {p : Except Fault (List Byte × State)} (h : WorksOrStops s p)
    (f : List Byte → List Byte) : WorksOrStops s (p.map fun q => (f q.1, q.2)) := by
  rcases h with ⟨bytes, t, rfl, hsteps⟩ | ⟨hc, rfl⟩
  · exact .inl ⟨_, _, rfl, hsteps⟩
  · exact .inr ⟨hc, rfl⟩

theorem readWhole_worksOrStops {n : Nat} (hn : n ≤ 992) (s : State) : WorksOrStops s (readWhole n s) := by
  rcases Nat.lt_or_ge 992 s.cur.toNat with hf | hc
  · exact .inr ⟨hf, readWhole_fault hf⟩
  · refine .inl ⟨_, _, readWhole_eq hn hc, .ite_refill (c := 992 - s.cur.toNat < n) (.advance n ?_ (.refl _))⟩
    split
    · simpa using hn
    · omega

theorem readOut_steps (n : Nat) (s : State) (h : s.cur.toNat ≤ 992) :
    ∃ bytes t, readOut n s = .ok (bytes, t) ∧ EngineSteps s t := by
  induction n, s, h using readOut_induction with
  | zero s hc => exact ⟨_, _, readOut_zero s, .refl s⟩
  | pass n s hn hc ih =>
    obtain ⟨more, t, hrest, hsteps⟩ := ih
    exact ⟨_, t, readOut_of_rest hn hc hrest, .ite_refill (.advance _ (chunkSize_le hc) hsteps)⟩

theorem readOut_worksOrStops (n : Nat) (s : State) : WorksOrStops s (readOut n s) := by
  rcases Nat.lt_or_ge 992 s.cur.toNat with hf | hc
  · rcases Nat.eq_zero_or_pos n with rfl | hn
    · exact .inl ⟨_, _, readOut_zero s, .refl s⟩
    · exact .inr ⟨hf, readOut_fault hn hf⟩
  · exact .inl (readOut_steps n s hc)

/-- The count of a restore without an error lies inside the Output Region, and CUR holds it whole (R181). -/
theorem restoreCount_le {seed : Key} {bc : Word} {s : State} (h : commandError (.tryRestoreState seed bc) s = none) :
    bc.toNat ≤ 992 ∧ (bc.setWidth 16 : Half).toNat = bc.toNat := by
  simp only [commandError, ite_eq_right_iff, reduceCtorEq, imp_false] at h
  have hle : bc.toNat ≤ 992 := Nat.le_of_not_lt h
  exact ⟨hle, by rw [BitVec.toNat_setWidth]; omega⟩

theorem commandBody_worksOrStops {i : Instr} {s : State} (h : commandError i s = none) :
    WorksOrStops s (commandBody i s) := by
  cases i with
  | setSeed seed => exact .inl ⟨_, _, rfl, .seed seed 0 s (by decide)⟩
  | readU32 => exact (readWhole_worksOrStops (n := 4) (by decide) s).map (bytes32 ∘ le32)
  | readU64 => exact (readWhole_worksOrStops (n := 8) (by decide) s).map (bytes64 ∘ le64)
  | readBytes len => exact readOut_worksOrStops len s
  | readSeed => exact readOut_worksOrStops 32 s
  | cloneState => exact .inl ⟨_, _, rfl, .refl s⟩
  | tryRestoreState seed bc =>
    obtain ⟨hle, hcur⟩ := restoreCount_le h
    exact .inl ⟨_, _, rfl, .seed seed _ s (hcur.trans_le hle)⟩

/-- Only the body of a read can stop. -/
theorem isRead_of_commandBody_error {i : Instr} {s : State} {f : Fault} (h : commandBody i s = .error f) :
    isRead i = true := by
  cases i with
  | setSeed | cloneState | tryRestoreState => exact nomatch h
  | _ => rfl

/-- All that a command can do: raise an error, respond after its work on the engine, or, for a read on a seeded core with
CUR above 992, stop. -/
theorem exec_cases (i : Instr) (s : State) :
    (∃ st, exec i s = .next (raise st s)) ∨
    (∃ bytes t, EngineSteps s t ∧ exec i s = .next (respond bytes t)) ∨
    (s.seeded = true ∧ 992 < s.cur.toNat ∧ exec i s = .fault (.cursorOutOfRange s.cur)) := by
  cases he : commandError i s with
  | some st => exact .inl ⟨st, exec_of_error he⟩
  | none =>
    have hx := exec_of_body he
    rcases commandBody_worksOrStops he with ⟨bytes, t, hb, hsteps⟩ | ⟨hc, hb⟩
    · exact .inr (.inl ⟨bytes, t, hsteps, by rw [hx, hb]; rfl⟩)
    · exact .inr (.inr ⟨seeded_of_isRead (isRead_of_commandBody_error hb) he, hc, by rw [hx, hb]; rfl⟩)

/-- A property of states that every way of changing the engine keeps, whatever is answered. -/
structure KeptByEngine (P : State → Prop) : Prop where
  answer : ∀ s r, P s → P { s with rsp := r }
  refill : ∀ s, P s → P (refill s)
  advance : ∀ n s, s.cur.toNat + n ≤ 992 → P s → P (advance n s)
  seed : ∀ key (c : Half) s, c.toNat ≤ 992 → P s → P { seedFill key s with cur := c }

namespace KeptByEngine

variable {P : State → Prop} {s t : State}

theorem engineSteps (hP : KeptByEngine P) (h : EngineSteps s t) (hs : P s) : P t := by
  induction h with
  | refl s => exact hs
  | refill _ ih => exact ih (hP.refill _ hs)
  | advance n hn _ ih => exact ih (hP.advance n _ hn hs)
  | seed key c s hc => exact hP.seed key c s hc hs

/-- What every way of changing the engine keeps, every command keeps. -/
theorem exec (hP : KeptByEngine P) {i : Instr} (h : exec i s = .next t) (hs : P s) : P t := by
  rcases exec_cases i s with ⟨st, he⟩ | ⟨bytes, u, hsteps, he⟩ | ⟨-, -, he⟩
  · obtain rfl : raise st s = t := Host.Outcome.next.inj (he.symm.trans h)
    exact hP.answer s _ hs
  · obtain rfl : respond bytes u = t := Host.Outcome.next.inj (he.symm.trans h)
    exact hP.answer u _ (hP.engineSteps hsteps hs)
  · exact nomatch he.symm.trans h

/-- What every way of changing the engine and the taking of command words keep, every step keeps. -/
theorem step (hP : KeptByEngine P) (htake : ∀ s c, P s → P { s with cmd := c }) (h : step s = .next t) (hs : P s) :
    P t := by
  rcases step_cases s with he | ⟨i, rest, -, -, he⟩ | ⟨why, rest, -, -, he⟩
  · exact Host.Outcome.next.inj (he.symm.trans h) ▸ hs
  · exact hP.exec (he.symm.trans h) (htake s rest hs)
  · obtain rfl := Host.Outcome.next.inj (he.symm.trans h)
    exact hP.answer _ _ (htake s rest hs)

end KeptByEngine

/-! ### The invariant -/

/-- The invariant does not look at the ports. -/
theorem Good.ports {s : State} (h : Good s) (c r : List Word) : Good { s with cmd := c, rsp := r } :=
  ⟨h.buf_wf, h.cur_le, h.buf_fill, h.lanes⟩

/-- The first clause of R32 by itself: it is all that keeps a command from stopping. -/
def CursorInRange (s : State) : Prop := s.seeded = true → s.cur.toNat ≤ 992

theorem not_cursorInRange_iff {s : State} : ¬ CursorInRange s ↔ s.seeded = true ∧ 992 < s.cur.toNat := by
  simp [CursorInRange]

/-- A move of the cursor inside the Output Region stays there. -/
theorem advance_cur_le {n : Nat} {s : State} (h : s.cur.toNat + n ≤ 992) : (advance n s).cur.toNat ≤ 992 :=
  (advance_cur_toNat h).trans_le h

theorem keptByEngine_cursorInRange : KeptByEngine CursorInRange where
  answer _ _ h := h
  refill _ _ _ := by simp
  advance _ _ hn _ _ := advance_cur_le hn
  seed _ _ _ hc _ _ := hc

theorem keptByEngine_good : KeptByEngine Good where
  answer s r h := h.ports s.cmd r
  refill s h := ⟨wf_fillBuf _, fun _ => by simp, fun _ => rfl, lastRegs_lanes _ _⟩
  advance _ _ hn h := ⟨h.buf_wf, fun _ => advance_cur_le hn, h.buf_fill, h.lanes⟩
  seed _ _ _ hc _ := ⟨wf_fillBuf _, fun _ => hc, fun _ => rfl, lastRegs_lanes _ _⟩

/-- While CUR is in range no command stops (R201). -/
theorem exec_next {s : State} (h : CursorInRange s) (i : Instr) : ∃ t, exec i s = .next t := by
  rcases exec_cases i s with ⟨st, he⟩ | ⟨bytes, t, -, he⟩ | ⟨hs, hc, -⟩
  · exact ⟨_, he⟩
  · exact ⟨_, he⟩
  · exact absurd h (not_cursorInRange_iff.2 ⟨hs, hc⟩)

/-- While CUR is in range no step stops (R201). -/
theorem step_next {s : State} (h : CursorInRange s) : ∃ t, step s = .next t := by
  rcases step_cases s with he | ⟨i, rest, -, -, he⟩ | ⟨why, rest, -, -, he⟩
  · exact ⟨_, he⟩
  · exact he ▸ exec_next (s := { s with cmd := rest }) h i
  · exact ⟨_, he⟩

/-- Settles O3: a good state is kept by everything the engine can do and by the taking of command words. -/
theorem stepKeepsInvariant : Obligations.StepKeepsInvariant := fun _ _ hs h =>
  keptByEngine_good.step (fun s c hs => hs.ports c s.rsp) h hs

/-- Settles O2: the two clauses of R32 ask nothing of an unseeded core, and the reset registers are made for its lanes. -/
theorem resetMeetsInvariant : Obligations.ResetMeetsInvariant := fun sel =>
  ⟨wf_resetWith sel, nofun, nofun, by simp⟩

/-- Every move of the system from a good state leads to a good state. -/
theorem move_good {s : State} (hs : Good s) (m : Move) : ∃ t, move m s = .next t ∧ Good t := by
  cases m with
  | hardware =>
    obtain ⟨t, h⟩ := step_next hs.cur_le
    exact ⟨t, h, stepKeepsInvariant s t hs h⟩
  | offer w => exact ⟨_, rfl, hs.ports (s.cmd ++ [w]) s.rsp⟩
  | take => exact ⟨_, rfl, hs.ports s.cmd s.rsp.tail⟩
  | reset sel => exact ⟨_, rfl, resetMeetsInvariant sel⟩

theorem moves_good (ms : List Move) {s : State} (hs : Good s) : ∃ t, moves ms s = .next t ∧ Good t := by
  induction ms generalizing s with
  | nil => exact ⟨s, rfl, hs⟩
  | cons m ms ih =>
    obtain ⟨t, hm, ht⟩ := move_good hs m
    simpa only [moves, hm] using ih ht

/-- Settles O4: the state after reset is good, and every move keeps a good state good. -/
theorem everyRunKeepsInvariant : Obligations.EveryRunKeepsInvariant := fun ms =>
  moves_good ms (resetMeetsInvariant Config.bkSel)

/-! ### Reset -/

/-- Settles O1: after reset the command port is empty, so that the step finds no command and waits. -/
theorem resetLeavesUnseededIdleCore : Obligations.ResetLeavesUnseededIdleCore :=
  ⟨fun _ _ => rfl, fun _ => ⟨rfl, rfl, rfl, rfl, rfl, rfl⟩, rfl⟩

/-! ### The logical states -/

theorem logical_unseeded_iff {s : State} : s.logical = .unseeded ↔ s.seeded = false := by
  cases hs : s.seeded with
  | false => simp [State.logical, hs]
  | true => by_cases hc : s.cur.toNat < 992 <;> simp [State.logical, hs, hc]

/-- A good core is in NEEDS_REFILL exactly at the end of the Output Region (R31). -/
theorem logical_needsRefill_iff {s : State} (h : CursorInRange s) :
    s.logical = .needsRefill ↔ s.seeded = true ∧ s.cur = 992 := by
  cases hs : s.seeded with
  | false => simp [State.logical, hs]
  | true =>
    have hle := h hs
    have hcur : s.cur = 992#16 ↔ ¬ s.cur.toNat < 992 := BitVec.toNat_inj.symm.trans (by simp; omega)
    by_cases hc : s.cur.toNat < 992 <;> simp [State.logical, hs, hc, hcur]

theorem keptByEngine_seeded : KeptByEngine fun s => s.seeded = true where
  answer _ _ h := h
  refill _ h := h
  advance _ _ _ h := h
  seed _ _ _ _ _ := rfl

/-- A command that raises an error performs no fill. -/
theorem fillCount_of_error {i : Instr} {s : State} {st : Status} (h : commandError i s = some st) :
    fillCount i s = 0 := by
  cases i with
  | setSeed seed => exact nomatch h
  | cloneState => rfl
  | tryRestoreState seed bc =>
    simp only [commandError, Option.ite_none_right_eq_some] at h
    exact if_neg (Nat.not_le_of_lt h.1)
  | _ =>
    simp only [commandError, Option.ite_none_left_eq_some] at h
    simp [fillCount, h.1]

/-- On an unseeded core the commands without an error are the two that seed it, each with one fill. -/
theorem seeds_of_unseeded {i : Instr} {s : State} (hs : s.seeded = false) (h : commandError i s = none) :
    fillCount i s = 1 ∧ ∃ t, exec i s = .next t ∧ t.seeded = true := by
  have hx := exec_of_body h
  cases i with
  | setSeed seed => exact ⟨rfl, _, hx, rfl⟩
  | tryRestoreState seed bc => exact ⟨if_pos (restoreCount_le h).1, _, hx, rfl⟩
  | _ => simp [commandError, hs] at h

/-- A command leaves the core unseeded exactly if it was and the command performed no fill (R31). -/
theorem exec_seeded_iff {i : Instr} {s t : State} (h : exec i s = .next t) :
    t.seeded = false ↔ s.seeded = false ∧ fillCount i s = 0 := by
  cases hs : s.seeded with
  | true => simp [keptByEngine_seeded.exec h hs]
  | false =>
    cases he : commandError i s with
    | some st =>
      obtain rfl := Host.Outcome.next.inj ((exec_of_error he).symm.trans h)
      simp [hs, fillCount_of_error he]
    | none =>
      obtain ⟨hfill, u, hu, hseeded⟩ := seeds_of_unseeded hs he
      obtain rfl := Host.Outcome.next.inj (hu.symm.trans h)
      simp [hfill, hseeded]

/-- Settles O7: the first clause is about SEEDED and fills alone, and the second is what CUR at most 992 leaves open. -/
theorem logicalStateTransitions : Obligations.LogicalStateTransitions := fun i s t hs h =>
  ⟨by simp only [logical_unseeded_iff, exec_seeded_iff h],
    logical_needsRefill_iff (keptByEngine_cursorInRange.exec h hs.cur_le)⟩

/-! ### Engines that answer alike -/

/-- Two cores with like engines, which have answered the same words since their response ports held `a` and `b`. -/
structure Alike (a b : List Word) (s u : State) : Prop where
  engine : SameEngine s u
  answered : ∃ r, s.rsp = a ++ r ∧ u.rsp = b ++ r

/-- What the bodies of a command come to on two cores with cursor `c`: the same bytes and cores still alike, or, with `c`
above 992, the same stop. -/
def LikeResults (a b : List Word) (c : Half) (p q : Except Fault (List Byte × State)) : Prop :=
  (∃ bytes s u, p = .ok (bytes, s) ∧ q = .ok (bytes, u) ∧ Alike a b s u) ∨
  (992 < c.toNat ∧ p = .error (.cursorOutOfRange c) ∧ q = .error (.cursorOutOfRange c))

theorem LikeResults.map {a b : List Word} {c : Half} {p q : Except Fault (List Byte × State)}
    (h : LikeResults a b c p q) (f : List Byte → List Byte) :
    LikeResults a b c (p.map fun r => (f r.1, r.2)) (q.map fun r => (f r.1, r.2)) := by
  rcases h with ⟨bytes, s, u, rfl, rfl, halike⟩ | ⟨hc, rfl, rfl⟩
  · exact .inl ⟨_, _, _, rfl, rfl, halike⟩
  · exact .inr ⟨hc, rfl, rfl⟩

namespace Alike

variable {a b : List Word} {s u : State}

theorem seeded (h : Alike a b s u) : s.seeded = u.seeded := h.engine.1
theorem key (h : Alike a b s u) : s.key = u.key := h.engine.2.1
theorem buf (h : Alike a b s u) : s.buf = u.buf := h.engine.2.2.1
theorem cur (h : Alike a b s u) : s.cur = u.cur := h.engine.2.2.2

theorem of_sameEngine (h : SameEngine s u) : Alike s.rsp u.rsp s u := ⟨h, [], by simp⟩

theorem answer (h : Alike a b s u) (ws : List Word) :
    Alike a b { s with rsp := s.rsp ++ ws } { u with rsp := u.rsp ++ ws } := by
  obtain ⟨r, hr, hr'⟩ := h.answered
  exact ⟨h.engine, r ++ ws, by simp [hr], by simp [hr']⟩

theorem refill (h : Alike a b s u) : Alike a b (refill s) (refill u) :=
  ⟨⟨h.seeded, by simp [h.buf], by simp [h.buf], rfl⟩, h.answered⟩

theorem advance (h : Alike a b s u) (n : Nat) : Alike a b (advance n s) (advance n u) :=
  ⟨⟨h.seeded, h.key, h.buf, by simp [h.cur]⟩, h.answered⟩

/-- A fill is the same whatever the backend (R142). -/
theorem seed (h : Alike a b s u) (key : Key) (c : Half) :
    Alike a b { seedFill key s with cur := c } { seedFill key u with cur := c } :=
  ⟨⟨rfl, rfl, rfl, rfl⟩, h.answered⟩

theorem ite_refill (h : Alike a b s u) (c : Prop) [Decidable c] :
    Alike a b (if c then Machine.refill s else s) (if c then Machine.refill u else u) := by
  split
  · exact h.refill
  · exact h

theorem readWhole (h : Alike a b s u) {n : Nat} (hn : n ≤ 992) :
    LikeResults a b s.cur (readWhole n s) (readWhole n u) := by
  have hcur := h.cur
  rcases Nat.lt_or_ge 992 s.cur.toNat with hf | hc
  · exact .inr ⟨hf, readWhole_fault hf, hcur ▸ readWhole_fault (hcur ▸ hf)⟩
  · have hstart := h.ite_refill (992 - s.cur.toNat < n)
    have hu := readWhole_eq hn (hcur ▸ hc)
    rw [← hcur] at hu
    refine .inl ⟨_, _, _, readWhole_eq hn hc, ?_, hstart.advance n⟩
    rw [hu, hstart.buf, hstart.cur]

theorem chunkStart (h : Alike a b s u) : Alike a b (chunkStart s) (chunkStart u) := by
  unfold Machine.chunkStart
  rw [← h.cur]
  exact h.ite_refill _

theorem chunkSize_eq (h : Alike a b s u) (n : Nat) : chunkSize n s = chunkSize n u := by
  simp only [chunkSize, h.chunkStart.cur]

theorem afterChunk (h : Alike a b s u) (n : Nat) : Alike a b (afterChunk n s) (afterChunk n u) := by
  unfold Machine.afterChunk
  rw [← h.chunkSize_eq]
  exact h.chunkStart.advance _

theorem readOut_ok (n : Nat) (s : State) (hc : s.cur.toNat ≤ 992) :
    ∀ u, Alike a b s u → ∃ bytes s' u', readOut n s = .ok (bytes, s') ∧ readOut n u = .ok (bytes, u') ∧
      Alike a b s' u' := by
  induction n, s, hc using readOut_induction with
  | zero s hc => exact fun u h => ⟨[], s, u, rfl, rfl, h⟩
  | pass n s hn hc ih =>
    intro u h
    obtain ⟨more, s', u', hs, hu, halike⟩ := ih _ (h.afterChunk n)
    rw [h.chunkSize_eq] at hu
    refine ⟨_, s', u', readOut_of_rest hn hc hs, ?_, halike⟩
    rw [readOut_of_rest hn (h.cur ▸ hc) hu, h.chunkStart.buf, h.chunkStart.cur, h.chunkSize_eq]

theorem readOut (h : Alike a b s u) (n : Nat) : LikeResults a b s.cur (readOut n s) (readOut n u) := by
  have hcur := h.cur
  rcases Nat.lt_or_ge 992 s.cur.toNat with hf | hc
  · rcases Nat.eq_zero_or_pos n with rfl | hn
    · exact .inl ⟨_, _, _, rfl, rfl, h⟩
    · exact .inr ⟨hf, readOut_fault hn hf, hcur ▸ readOut_fault hn (hcur ▸ hf)⟩
  · exact .inl (readOut_ok n s hc u h)

theorem commandError_eq (h : Alike a b s u) (i : Instr) : commandError i s = commandError i u := by
  cases i <;> simp only [commandError, h.seeded]

theorem commandBody (h : Alike a b s u) (i : Instr) :
    LikeResults a b s.cur (commandBody i s) (commandBody i u) := by
  cases i with
  | setSeed seed => exact .inl ⟨_, _, _, rfl, rfl, h.seed seed 0⟩
  | readU32 => exact (h.readWhole (n := 4) (by decide)).map (bytes32 ∘ le32)
  | readU64 => exact (h.readWhole (n := 8) (by decide)).map (bytes64 ∘ le64)
  | readBytes len => exact h.readOut len
  | readSeed => exact h.readOut 32
  | cloneState =>
    refine .inl ⟨_, s, u, rfl, ?_, h⟩
    simp only [Machine.commandBody, snapshotCount, h.key, h.cur]
  | tryRestoreState seed bc => exact .inl ⟨_, _, _, rfl, rfl, h.seed seed _⟩

/-- Cores that are alike answer a command alike, or both stop, seeded and with CUR above 992. -/
theorem exec (h : Alike a b s u) (i : Instr) :
    (∃ s' u', exec i s = .next s' ∧ exec i u = .next u' ∧ Alike a b s' u') ∨
    (¬ CursorInRange s ∧ ∃ f, exec i s = .fault f ∧ exec i u = .fault f) := by
  cases he : commandError i s with
  | some st => exact .inl ⟨_, _, exec_of_error he, exec_of_error (h.commandError_eq i ▸ he), h.answer _⟩
  | none =>
    rw [exec_of_body he, exec_of_body (h.commandError_eq i ▸ he)]
    rcases h.commandBody i with ⟨bytes, s', u', hs, hu, halike⟩ | ⟨hc, hs, hu⟩
    · exact .inl ⟨respond bytes s', respond bytes u', by rw [hs]; rfl, by rw [hu]; rfl, halike.answer _⟩
    · have hseeded := seeded_of_isRead (isRead_of_commandBody_error hs) he
      exact .inr ⟨not_cursorInRange_iff.2 ⟨hseeded, hc⟩, _, by rw [hs]; rfl, by rw [hu]; rfl⟩

/-- A core that starts with CUR in range keeps it there, so a stop anywhere in a sequence speaks of the first state. -/
theorem execAll (h : Alike a b s u) (is : List Instr) :
    (∃ s' u', execAll is s = .next s' ∧ execAll is u = .next u' ∧ Alike a b s' u') ∨
    (¬ CursorInRange s ∧ ∃ f, execAll is s = .fault f ∧ execAll is u = .fault f) := by
  induction is generalizing s u with
  | nil => exact .inl ⟨s, u, rfl, rfl, h⟩
  | cons i is ih =>
    rcases h.exec i with ⟨s', u', hs, hu, halike⟩ | ⟨hc, f, hs, hu⟩
    · simp only [Machine.execAll, hs, hu]
      exact (ih halike).imp_right (And.imp_left (mt (keptByEngine_cursorInRange.exec hs)))
    · exact .inr ⟨hc, f, by simp only [Machine.execAll, hs], by simp only [Machine.execAll, hu]⟩

end Alike

/-- Settles O36: cores with the same engine are alike from the words their response ports hold at the start. -/
theorem likeEnginesAnswerAlike : Obligations.LikeEnginesAnswerAlike := by
  intro is s u h
  rcases (Alike.of_sameEngine h).execAll is with ⟨s', u', hs, hu, halike⟩ | ⟨hc, hstop⟩
  · obtain ⟨r, hr, hr'⟩ := halike.answered
    exact .inl ⟨s', u', r, hs, hu, halike.engine, hr, hr'⟩
  · obtain ⟨hseeded, hcur⟩ := not_cursorInRange_iff.1 hc
    exact .inr ⟨hseeded, hcur, hstop⟩

end Sys2Proof.Machine

/-! SUPPORT and PROOFS for the family 20_memory.md: byte strings on the ports, the two forms of a seed, and commands that
store nothing. -/

namespace Sys2Proof.Machine

/-! ### Byte strings in port words -/

/-- Digit `k` of a byte string's value to base 256 is its byte `k`; past its end the digits are zero. -/
theorem leNat_digit (bs : List Byte) (k : Nat) : leNat bs / 256 ^ k % 256 = (bs.getD k 0).toNat := by
  induction bs generalizing k with
  | nil => simp [leNat]
  | cons b bs ih =>
    cases k with
    | zero =>
      simp only [leNat, List.getD_cons_zero]
      omega
    | succ k =>
      have hshift : (b.toNat + 256 * leNat bs) / 256 = leNat bs := by omega
      rw [leNat, Nat.pow_succ', ← Nat.div_div_eq_div_mul, hshift, ih, List.getD_cons_succ]

/-- A byte of the word that carries a byte string: missing high bytes are zero (R8, R63). -/
theorem le32_byte (bs : List Byte) {k : Nat} (hk : k < 4) : (le32 bs).extractLsb' (8 * k) 8 = bs.getD k 0 := by
  apply BitVec.eq_of_toNat_eq
  rw [← leNat_digit, BitVec.extractLsb'_toNat, le32, BitVec.toNat_ofNat, Nat.shiftRight_eq_div_pow]
  interval_cases k <;> omega

/-- The first word carries the first four bytes, or all there are (R63). -/
theorem packWords_of_ne_nil {bs : List Byte} (h : bs ≠ []) :
    packWords bs = le32 (bs.take 4) :: packWords (bs.drop 4) := by
  match bs, h with
  | [_], _ | [_, _], _ | [_, _, _], _ | _ :: _ :: _ :: _ :: _, _ => rfl

theorem packWords_length (bs : List Byte) : (packWords bs).length = (bs.length + 3) / 4 := by
  fun_induction packWords bs with
  | case5 a b c d rest ih =>
    simp only [List.length_cons, ih]
    omega
  | _ => simp

/-- Word `j` carries the bytes from `4j` on, at most four; past the last word there are none. -/
theorem packWords_getD (bs : List Byte) (j : Nat) : (packWords bs).getD j 0 = le32 ((bs.drop (4 * j)).take 4) := by
  induction j generalizing bs with
  | zero =>
    rcases eq_or_ne bs [] with rfl | h
    · rfl
    · rw [packWords_of_ne_nil h]; rfl
  | succ j ih =>
    rcases eq_or_ne bs [] with rfl | h
    · simp [packWords, le32, leNat]
    · rw [packWords_of_ne_nil h, List.getD_cons_succ, ih, List.drop_drop, Nat.mul_succ, Nat.add_comm]

/-- Byte `i` of the words that carry a byte string, zero past its end (R63). -/
theorem packWords_byte (bs : List Byte) (i : Nat) :
    ((packWords bs).getD (i / 4) 0).extractLsb' (8 * (i % 4)) 8 = bs.getD i 0 := by
  have hk : i % 4 < 4 := Nat.mod_lt i (by decide)
  rw [packWords_getD, le32_byte _ hk]
  simp only [List.getD_eq_getElem?_getD, List.getElem?_take_of_lt hk, List.getElem?_drop, Nat.div_add_mod]

/-- Settles O49: the padding clause is the byte clause past the string's end. -/
theorem portPacking : Obligations.PortPacking := fun bs =>
  ⟨packWords_length bs, fun i _ => packWords_byte bs i, fun i hi _ =>
    (packWords_byte bs i).trans (List.getD_eq_default _ _ hi)⟩

/-! ### The two forms of a seed -/

/-- Words pack from their own bytes (R51). -/
@[simp] theorem packWords_bytesOfWords (ws : List Word) : packWords (bytesOfWords ws) = ws := by
  simpa [packWords] using packWords_bytesOfWords_append ws []

/-- A byte string that fills its words is the byte string of those words (R51). -/
theorem bytesOfWords_packWords {bs : List Byte} (h : bs.length % 4 = 0) : bytesOfWords (packWords bs) = bs := by
  fun_induction packWords bs with
  | case1 => rfl
  | case5 a b c d rest ih =>
    have hrest : rest.length % 4 = 0 := by
      simp only [List.length_cons] at h
      omega
    calc bytesOfWords (le32 [a, b, c, d] :: packWords rest)
      _ = bytes32 (le32 [a, b, c, d]) ++ bytesOfWords (packWords rest) := rfl
      _ = a :: b :: c :: d :: rest := by rw [bytes32_le32, ih hrest]; rfl
  | _ => simp at h

/-- The key of a 32-byte seed is the words that carry the seed on the port (R73). -/
theorem keyOfBytes_toList (seed : Vector Byte 32) : (keyOfBytes seed).toList = packWords seed.toList := by
  refine List.ext_getElem (by simp [packWords_length]) fun j hj hj' => ?_
  have hj8 : j < 8 := by simpa using hj
  have hword : (packWords seed.toList)[j] = le32 ((seed.toList.drop (4 * j)).take 4) := by
    rw [← packWords_getD, List.getD_eq_getElem]
  have hbytes : (seed.toList.drop (4 * j)).take 4 = [seed[4 * j], seed[4 * j + 1], seed[4 * j + 2], seed[4 * j + 3]] := by
    refine List.ext_getElem (by simp; omega) fun k hk hk' => ?_
    have hk4 : k < 4 := hk'
    interval_cases k <;> simp
  rw [hword, hbytes]
  simp [keyOfBytes]

/-- Settles O50: both forms are carried by the same port words, and packing into words loses nothing of 32 bytes. -/
theorem seedFormsAreEquivalent : Obligations.SeedFormsAreEquivalent := by
  refine ⟨fun b => ?_, fun k b h => ?_⟩
  · rw [bytesOfKey, keyOfBytes_toList, bytesOfWords_packWords (by simp)]
  · rw [← Vector.toList_inj, keyOfBytes_toList, h, bytesOfKey, packWords_bytesOfWords]

/-! ### Commands without a fill -/

/-- A word read with enough bytes left only moves the cursor (R154, R155). -/
theorem readWhole_within {n : Nat} {s : State} (hn : 0 < n) (h : n ≤ 992 - s.cur.toNat) :
    readWhole n s = .ok (s.buf.readBytes s.cur.toNat n, advance n s) := by
  rw [readWhole_eq (by omega) (by omega), if_neg (Nat.not_lt.2 h)]

/-- A byte read with enough bytes left only moves the cursor (R156). -/
theorem readOut_within {n : Nat} {s : State} (h : n ≤ 992 - s.cur.toNat) :
    readOut n s = .ok (s.buf.readBytes s.cur.toNat n, advance n s) := by
  rcases Nat.eq_zero_or_pos n with rfl | hn
  · rw [readOut_zero, advance_zero]; rfl
  · have hstart : chunkStart s = s := if_neg (by omega)
    have hsize : chunkSize n s = n := by rw [chunkSize, hstart, Nat.min_eq_left h]
    have hrest : readOut (n - chunkSize n s) (afterChunk n s) = .ok ([], advance n s) := by
      rw [afterChunk, hstart, hsize, Nat.sub_self, readOut_zero]
    rw [readOut_of_rest hn (by omega) hrest, hstart, hsize, List.append_nil]

/-- A byte read refills exactly if it wants more than is left (R156). -/
theorem refillCount_eq_zero_iff {c len : Nat} : refillCount c len = 0 ↔ len ≤ 992 - c := by
  unfold refillCount
  split <;> omega

/-- The body of a command that performs no fill only moves the cursor (R165, R166). -/
theorem commandBody_of_no_fill {i : Instr} {s : State} (he : commandError i s = none) (h0 : fillCount i s = 0) :
    ∃ bytes n, commandBody i s = .ok (bytes, advance n s) := by
  have hs : isRead i = true → s.seeded = true := fun hi => seeded_of_isRead hi he
  cases i with
  | setSeed seed => exact nomatch h0
  | tryRestoreState seed bc => simp [fillCount, (restoreCount_le he).1] at h0
  | cloneState => exact ⟨_, 0, by rw [advance_zero]; rfl⟩
  | readU32 =>
    simp only [fillCount, hs rfl, true_and, ite_eq_right_iff, one_ne_zero, imp_false, not_lt] at h0
    exact ⟨_, 4, by rw [commandBody, readWhole_within (by decide) h0]; rfl⟩
  | readU64 =>
    simp only [fillCount, hs rfl, true_and, ite_eq_right_iff, one_ne_zero, imp_false, not_lt] at h0
    exact ⟨_, 8, by rw [commandBody, readWhole_within (by decide) h0]; rfl⟩
  | readBytes len =>
    simp only [fillCount, hs rfl, if_true, refillCount_eq_zero_iff] at h0
    exact ⟨_, len, readOut_within h0⟩
  | readSeed =>
    simp only [fillCount, hs rfl, if_true, refillCount_eq_zero_iff] at h0
    exact ⟨_, 32, readOut_within h0⟩

/-- All that a command without a fill can do: raise an error, or move the cursor and respond. -/
theorem exec_of_no_fill {i : Instr} {s : State} (h0 : fillCount i s = 0) :
    (∃ st, exec i s = .next (raise st s)) ∨ (∃ bytes n, exec i s = .next (respond bytes (advance n s))) := by
  cases he : commandError i s with
  | some st => exact .inl ⟨st, exec_of_error he⟩
  | none =>
    obtain ⟨bytes, n, hb⟩ := commandBody_of_no_fill he h0
    exact .inr ⟨bytes, n, by rw [exec_of_body he, hb, finish_respondRead_ok]⟩

/-- Settles O29: neither an error, nor a response, nor a move of the cursor writes K, BUF, SEEDED, BK, x, CTR or the
command port. -/
theorem noFillNoStore : Obligations.NoFillNoStore := by
  intro i s t h h0
  rcases exec_of_no_fill h0 with ⟨st, he⟩ | ⟨bytes, n, he⟩
  · obtain rfl : raise st s = t := Host.Outcome.next.inj (he.symm.trans h)
    simp
  · obtain rfl : respond bytes (advance n s) = t := Host.Outcome.next.inj (he.symm.trans h)
    simp

end Sys2Proof.Machine

/-! SUPPORT and PROOFS for the family 30_encoding.md: the one spelling of each command, the delivery of commands over the
ports, the one response to each, and the pseudo-instructions. -/

namespace Sys2Proof

/-! ### The one command word of each head -/

/-- The command word that begins with `h` (R72). -/
def Head.word : Head → Word
  | .setSeed => commandWord 0x01 0
  | .readU32 => commandWord 0x02 0
  | .readU64 => commandWord 0x03 0
  | .readBytes len => commandWord 0x04 (BitVec.ofNat 24 len)
  | .readSeed => commandWord 0x05 0
  | .cloneState => commandWord 0x06 0
  | .tryRestoreState => commandWord 0x07 0

/-- The check on a head: a READ_BYTES length fits the ARG field (R72). -/
def Head.wf : Head → Bool
  | .readBytes len => decide (len ≤ lenMax)
  | _ => true

/-- A length up to LEN_MAX goes through the ARG field unchanged. -/
theorem toNat_arg_of_le {len : Nat} (h : len ≤ lenMax) : (BitVec.ofNat 24 len).toNat = len := by
  rw [lenMax] at h
  rw [BitVec.toNat_ofNat]
  omega

theorem toNat_arg_le (arg : BitVec 24) : arg.toNat ≤ lenMax := Nat.le_of_lt_succ arg.isLt

theorem decodeHead_word {h : Head} (hwf : h.wf = true) : decodeHead h.word = .ok h := by
  cases h with
  | readBytes len => simp [Head.word, toNat_arg_of_le (of_decide_eq_true hwf)]
  | _ => simp [Head.word]

/-- A command word whose ARG must be 0 is known from its opcode (R79 (ii)). -/
theorem eq_word_of_requireZeroArg {cw : Word} {h h' : Head} (opc : Byte) (hopc : (opcField cw).toNat = opc.toNat)
    (hwf : h.wf = true) (hword : h.word = commandWord opc 0) (e : requireZeroArg cw h = .ok h') :
    h'.wf = true ∧ cw = h'.word := by
  obtain ⟨harg, rfl⟩ := requireZeroArg_ok e
  exact ⟨hwf, by rw [hword, ← BitVec.eq_of_toNat_eq hopc, ← harg, commandWord_fields]⟩

theorem eq_word_of_decodeHead {cw : Word} {h : Head} (e : decodeHead cw = .ok h) : h.wf = true ∧ cw = h.word := by
  unfold decodeHead at e
  split at e
  case h_1 hopc => exact eq_word_of_requireZeroArg 1 hopc rfl rfl e
  case h_2 hopc => exact eq_word_of_requireZeroArg 2 hopc rfl rfl e
  case h_3 hopc => exact eq_word_of_requireZeroArg 3 hopc rfl rfl e
  case h_4 hopc =>
    obtain rfl := Except.ok.inj e
    have hopc4 : opcField cw = 4 := BitVec.eq_of_toNat_eq hopc
    refine ⟨decide_eq_true (toNat_arg_le _), ?_⟩
    calc cw = commandWord (opcField cw) (argField cw) := (commandWord_fields cw).symm
      _ = (Head.readBytes (argField cw).toNat).word := by rw [hopc4, Head.word, BitVec.ofNat_toNat, BitVec.setWidth_eq]
  case h_5 hopc => exact eq_word_of_requireZeroArg 5 hopc rfl rfl e
  case h_6 hopc => exact eq_word_of_requireZeroArg 6 hopc rfl rfl e
  case h_7 hopc => exact eq_word_of_requireZeroArg 7 hopc rfl rfl e
  case h_8 => exact nomatch e

/-- Each head is the meaning of one command word (R72, R78). -/
theorem decodeHead_eq_ok_iff {cw : Word} {h : Head} : decodeHead cw = .ok h ↔ h.wf = true ∧ cw = h.word :=
  ⟨eq_word_of_decodeHead, fun ⟨hwf, hcw⟩ => hcw ▸ decodeHead_word hwf⟩

/-- Settles O10: only SET_SEED and TRY_RESTORE_STATE have a payload, and each has one command word. -/
theorem commandLengthFromWord : Obligations.CommandLengthFromWord := by
  intro cw
  by_cases h1 : cw = 0x00000001
  · subst h1; rfl
  by_cases h7 : cw = 0x00000007
  · subst h7; rfl
  rw [if_neg h1, if_neg h7, commandLength]
  cases e : decodeHead cw with
  | error why => rfl
  | ok h =>
    have hcw := (decodeHead_eq_ok_iff.1 e).2
    cases h with
    | setSeed => exact absurd hcw h1
    | tryRestoreState => exact absurd hcw h7
    | _ => rfl

/-! ### The one spelling of each command -/

theorem decode_cons_of_ok {cw : Word} {h : Head} (e : decodeHead cw = .ok h) (ws : List Word) :
    decode (cw :: ws) = decodePayload h ws := by
  simp only [decode, e]

theorem decode_cons_of_error {cw : Word} {why : Illegal} (e : decodeHead cw = .error why) (ws : List Word) :
    decode (cw :: ws) = .illegal why ws := by
  simp only [decode, e]

/-- Settles O8: the command word gives back its head, and the payload its operands. -/
theorem decodeEncode : Obligations.DecodeEncode := by
  intro i rest hwf
  cases i with
  | readBytes len => simp [encode, decode, decodePayload, toNat_arg_of_le (of_decide_eq_true hwf)]
  | _ => simp [encode, decode, decodePayload]

/-- The payload a command was decoded from, behind the command word of its head (R73, R74). -/
theorem eq_encode_of_decodePayload {h : Head} {ws rest : List Word} {i : Instr}
    (e : decodePayload h ws = .command i rest) : i.wf = h.wf ∧ h.word :: ws = encode i ++ rest := by
  cases h with
  | setSeed =>
    cases hk : takeKey ws with
    | none => simp [decodePayload, hk] at e
    | some p =>
      simp only [decodePayload, hk, Decoded.command.injEq] at e
      obtain ⟨rfl, rfl⟩ := e
      exact ⟨rfl, congrArg _ (takeKey_some hk)⟩
  | tryRestoreState =>
    cases hk : takeSnapshot ws with
    | none => simp [decodePayload, hk] at e
    | some p =>
      simp only [decodePayload, hk, Decoded.command.injEq] at e
      obtain ⟨rfl, rfl⟩ := e
      exact ⟨rfl, by rw [takeSnapshot_some hk]; simp [encode, Head.word]⟩
  | _ =>
    obtain ⟨rfl, rfl⟩ := Decoded.command.inj e
    exact ⟨rfl, rfl⟩

/-- Settles O9: the head fixes the command word, and the operands the payload. -/
theorem decodedCommandHasOneSpelling : Obligations.DecodedCommandHasOneSpelling := by
  intro ws i rest e
  cases ws with
  | nil => exact nomatch e
  | cons cw ws =>
    cases hd : decodeHead cw with
    | error why => exact nomatch (decode_cons_of_error hd ws).symm.trans e
    | ok h =>
      obtain ⟨hwf, rfl⟩ := decodeHead_eq_ok_iff.1 hd
      obtain ⟨hi, hws⟩ := eq_encode_of_decodePayload ((decode_cons_of_ok hd ws).symm.trans e)
      exact ⟨hi.trans hwf, hws⟩

/-- Settles O11: the words written out are the encodings of the commands. -/
theorem tableWordsDecode : Obligations.TableWordsDecode :=
  ⟨decodeEncode (.setSeed #v[1, 2, 3, 4, 5, 6, 7, 8]) [] rfl, decodeEncode .readU32 [] rfl,
    decodeEncode .readU64 [] rfl, decodeEncode (.readBytes 989) [] rfl, decodeEncode .readSeed [] rfl,
    decodeEncode .cloneState [] rfl, decodeEncode (.tryRestoreState #v[1, 2, 3, 4, 5, 6, 7, 8] 993) [] rfl⟩

/-! ### Commands offered in part -/

/-- Words behind a whole command stay behind it. -/
theorem decode_append_of_command {ws rest : List Word} {i : Instr} (e : decode ws = .command i rest) (more : List Word) :
    decode (ws ++ more) = .command i (rest ++ more) := by
  obtain ⟨hwf, rfl⟩ := decodedCommandHasOneSpelling ws i rest e
  rw [List.append_assoc]
  exact decodeEncode i _ hwf

/-- Only a command word can be illegal (R78, R79). -/
theorem decodePayload_ne_illegal {h : Head} {ws rest : List Word} {why : Illegal} :
    decodePayload h ws ≠ .illegal why rest := by
  cases h with
  | setSeed => cases hk : takeKey ws <;> simp [decodePayload, hk]
  | tryRestoreState => cases hk : takeSnapshot ws <;> simp [decodePayload, hk]
  | _ => simp [decodePayload]

/-- An illegal word is taken alone (R79). -/
theorem eq_cons_of_decode_illegal {ws rest : List Word} {why : Illegal} (e : decode ws = .illegal why rest) :
    ∃ cw, decodeHead cw = .error why ∧ ws = cw :: rest := by
  cases ws with
  | nil => exact nomatch e
  | cons cw ws =>
    cases hd : decodeHead cw with
    | error why' =>
      obtain ⟨rfl, rfl⟩ := Decoded.illegal.inj ((decode_cons_of_error hd ws).symm.trans e)
      exact ⟨cw, hd, rfl⟩
    | ok h => exact absurd ((decode_cons_of_ok hd ws).symm.trans e) decodePayload_ne_illegal

/-- Words behind an illegal word stay behind it (R79). -/
theorem decode_append_of_illegal {ws rest : List Word} {why : Illegal} (e : decode ws = .illegal why rest)
    (more : List Word) : decode (ws ++ more) = .illegal why (rest ++ more) := by
  obtain ⟨cw, hd, rfl⟩ := eq_cons_of_decode_illegal e
  exact decode_cons_of_error hd (rest ++ more)

/-- A command that lacks words is no command yet (R229). -/
theorem decode_incomplete {i : Instr} {ws more : List Word} (hwf : i.wf = true) (h : ws ++ more = encode i)
    (hmore : more ≠ []) : decode ws = .incomplete := by
  have hi : decode (ws ++ more) = .command i [] := by
    rw [h, ← List.append_nil (encode i)]
    exact decodeEncode i [] hwf
  cases e : decode ws with
  | incomplete => rfl
  | illegal why rest => exact nomatch hi.symm.trans (decode_append_of_illegal e more)
  | command j rest =>
    have hrest := (Decoded.command.inj (hi.symm.trans (decode_append_of_command e more))).2
    exact absurd (List.append_eq_nil_iff.1 hrest.symm).2 hmore

end Sys2Proof

namespace Sys2Proof.Machine

/-! ### Delivery over the command port -/

/-- Settles O13: with the response port empty, a fetch finds what is decoded. -/
theorem stepRunsDecodedCommand : Obligations.StepRunsDecodedCommand := by
  intro s i rest hr hd
  simp only [step, fetch, hr, hd]

/-- A step that finds no whole command waits (R229). -/
theorem step_of_incomplete {s : State} (h : decode s.cmd = .incomplete) : step s = .next s := by
  rcases step_cases s with hwait | ⟨i, rest, -, hd, -⟩ | ⟨why, rest, -, hd, -⟩
  · exact hwait
  · exact nomatch h.symm.trans hd
  · exact nomatch h.symm.trans hd

@[simp] theorem moves_nil (s : State) : moves [] s = .next s := rfl

theorem moves_cons_of_next {m : Move} {s t : State} (h : move m s = .next t) (ms : List Move) :
    moves (m :: ms) s = moves ms t := by
  simp only [moves, h]

/-- A run of one move is that move. -/
theorem moves_singleton (m : Move) (s : State) : moves [m] s = move m s := by
  simp only [moves]
  cases move m s <;> rfl

theorem issueMoves_cons (w : Word) (ws : List Word) : issueMoves (w :: ws) = .offer w :: .hardware :: issueMoves ws := rfl

/-- Whatever part of a command stands on the port, offering what is missing of it comes to one step of the hardware, with
the whole command on the port: every step before the last word waits (R229). -/
theorem moves_issueMoves {i : Instr} {s : State} {ws : List Word} (hwf : i.wf = true) (hne : ws ≠ [])
    (h : s.cmd ++ ws = encode i) : moves (issueMoves ws) s = step { s with cmd := encode i } := by
  induction ws generalizing s with
  | nil => exact absurd rfl hne
  | cons w ws ih =>
    have hoffered : (offer w s).cmd ++ ws = encode i := by rw [← h, offer_cmd, List.append_assoc, List.singleton_append]
    rw [issueMoves_cons, moves_cons_of_next rfl]
    rcases eq_or_ne ws [] with rfl | hws
    · calc moves (.hardware :: issueMoves []) (offer w s)
        _ = step (offer w s) := moves_singleton .hardware _
        _ = step { s with cmd := encode i } := by rw [← hoffered, List.append_nil]; rfl
    · have hwait : move .hardware (offer w s) = .next (offer w s) :=
        step_of_incomplete (decode_incomplete hwf hoffered hws)
      rw [moves_cons_of_next hwait, ih hws hoffered]
      rfl

theorem encode_ne_nil (i : Instr) : encode i ≠ [] := by cases i <;> exact List.cons_ne_nil _ _

/-- Settles O16: the hardware waits until the last word is offered, and then runs the command. -/
theorem wordByWordDelivery : Obligations.WordByWordDelivery := by
  intro i s hwf hcmd hrsp
  have hall : s.cmd ++ encode i = encode i := by rw [hcmd, List.nil_append]
  have hdec : decode (encode i) = .command i s.cmd := by
    rw [hcmd, ← List.append_nil (encode i)]
    exact decodeEncode i [] hwf
  rw [moves_issueMoves hwf (encode_ne_nil i) hall]
  exact stepRunsDecodedCommand { s with cmd := encode i } i s.cmd hrsp hdec

/-! ### The response to a command -/

/-- Work on the engine touches neither port. -/
theorem EngineSteps.ports_eq {s t : State} (h : EngineSteps s t) : t.cmd = s.cmd ∧ t.rsp = s.rsp := by
  induction h with
  | refl s => exact ⟨rfl, rfl⟩
  | refill _ ih => exact ih
  | advance n _ _ ih => exact ih
  | seed key c s _ => exact ⟨rfl, rfl⟩

/-- A byte read returns the bytes it was asked for (R156). -/
theorem readOut_length {n : Nat} {s t : State} {bytes : List Byte} (h : readOut n s = .ok (bytes, t)) :
    bytes.length = n := by
  rcases Nat.eq_zero_or_pos n with rfl | hn
  · obtain rfl := (Prod.mk.inj (Except.ok.inj h)).1
    rfl
  rcases Nat.lt_or_ge 992 s.cur.toNat with hf | hc
  · exact nomatch (readOut_fault hn hf).symm.trans h
  · clear hn
    induction n, s, hc using readOut_induction generalizing bytes with
    | zero s hc =>
      obtain rfl := (Prod.mk.inj (Except.ok.inj h)).1
      rfl
    | pass n s hn hc ih =>
      obtain ⟨more, u, hrest, -⟩ := readOut_steps (n - chunkSize n s) (afterChunk n s) (afterChunk_cur_le hc)
      obtain ⟨rfl, rfl⟩ := Prod.mk.inj (Except.ok.inj ((readOut_of_rest hn hc hrest).symm.trans h))
      have hmore : more.length = n - chunkSize n s := ih hrest
      have hle : chunkSize n s ≤ n := Nat.min_le_left _ _
      rw [List.length_append, readBytes_length, hmore]
      omega

/-- A result made from the bytes that were read. -/
theorem eq_of_map_eq_ok {p : Except Fault (List Byte × State)} {f : List Byte → List Byte} {t : State} {bytes : List Byte}
    (h : (p.map fun q => (f q.1, q.2)) = .ok (bytes, t)) : ∃ read, bytes = f read := by
  cases p with
  | error e => exact nomatch h
  | ok q => exact ⟨q.1, (Prod.mk.inj (Except.ok.inj h)).1.symm⟩

/-- A body's result has the length the command's response has with OK (R77). -/
theorem commandBody_length {i : Instr} {s t : State} {bytes : List Byte} (h : commandBody i s = .ok (bytes, t)) :
    bytes.length = resultLength i := by
  cases i with
  | readBytes len => exact readOut_length h
  | readSeed => exact readOut_length h
  | readU32 => obtain ⟨_, rfl⟩ := eq_of_map_eq_ok (f := bytes32 ∘ le32) h; rfl
  | readU64 => obtain ⟨_, rfl⟩ := eq_of_map_eq_ok (f := bytes64 ∘ le64) h; rfl
  | _ =>
    obtain ⟨rfl, -⟩ := Prod.mk.inj (Except.ok.inj h)
    simp [resultLength, bytesOfKey, bytesOfWords_length, bytes32]

theorem commandError_ne_ok {i : Instr} {s : State} {st : Status} (h : commandError i s = some st) : st ≠ .ok := by
  rintro rfl
  cases i <;> simp [commandError] at h

/-- All that a command that does not stop can do: raise an error, or respond with its result after its work on the
engine. -/
theorem exec_next_cases {i : Instr} {s t : State} (h : exec i s = .next t) :
    (∃ st, st ≠ .ok ∧ t = raise st s) ∨
    (∃ bytes u, EngineSteps s u ∧ bytes.length = resultLength i ∧ t = respond bytes u) := by
  cases he : commandError i s with
  | some st => exact .inl ⟨st, commandError_ne_ok he, Host.Outcome.next.inj (h.symm.trans (exec_of_error he))⟩
  | none =>
    have hx := h.symm.trans (exec_of_body he)
    rcases commandBody_worksOrStops he with ⟨bytes, u, hb, hsteps⟩ | ⟨-, hb⟩
    · rw [hb, finish_respondRead_ok] at hx
      exact .inr ⟨bytes, u, hsteps, commandBody_length hb, Host.Outcome.next.inj hx⟩
    · rw [hb] at hx
      exact nomatch hx

theorem resultLength_lt {i : Instr} (h : i.wf = true) : resultLength i < 2 ^ 24 := by
  cases i with
  | readBytes len => exact Nat.lt_succ_of_le (of_decide_eq_true h)
  | _ => simp [resultLength]

/-- Settles O17: an error's response has no words behind the status word, and a result's are its bytes packed. -/
theorem oneResponsePerCommand : Obligations.OneResponsePerCommand := by
  intro i s t hwf h
  rcases exec_next_cases h with ⟨st, hst, rfl⟩ | ⟨bytes, u, hsteps, hlen, rfl⟩
  · exact ⟨st, 0, [], raise_rsp st s, rfl, by decide, fun hok => absurd hok hst, fun _ => rfl⟩
  · refine ⟨.ok, resultLength i, packWords bytes, ?_, ?_, resultLength_lt hwf, fun _ => rfl, fun hne => absurd rfl hne⟩
    · rw [respond_rsp, hsteps.ports_eq.2, hlen]
    · rw [packWords_length, hlen]

/-- A command takes nothing from the command port and puts its response behind the words at the response port. -/
theorem exec_ports {i : Instr} {s t : State} (h : exec i s = .next t) :
    t.cmd = s.cmd ∧ ∃ produced, t.rsp = s.rsp ++ produced := by
  rcases exec_next_cases h with ⟨st, -, rfl⟩ | ⟨bytes, u, hsteps, -, rfl⟩
  · exact ⟨raise_cmd st s, _, raise_rsp st s⟩
  · obtain ⟨hcmd, hrsp⟩ := hsteps.ports_eq
    exact ⟨hcmd, _, by rw [respond_rsp, hrsp]⟩

/-! ### The ports as streams -/

theorem moves_offers (ws : List Word) (s : State) : moves (ws.map .offer) s = .next { s with cmd := s.cmd ++ ws } := by
  induction ws generalizing s with
  | nil => simp
  | cons w ws ih =>
    rw [List.map_cons, moves_cons_of_next rfl, ih (offer w s), offer_cmd, List.append_assoc]
    rfl

theorem moves_takes (n : Nat) (s : State) : moves (List.replicate n .take) s = .next { s with rsp := s.rsp.drop n } := by
  induction n generalizing s with
  | zero => rfl
  | succ n ih =>
    rw [List.replicate_succ, moves_cons_of_next rfl, ih (takeResponse s), takeResponse_rsp, List.drop_tail]
    rfl

theorem step_ports {s t : State} (h : step s = .next t) :
    (∃ taken, s.cmd = taken ++ t.cmd) ∧ ∃ produced, t.rsp = s.rsp ++ produced := by
  rcases step_cases s with hs | ⟨i, rest, -, hd, hs⟩ | ⟨why, rest, -, hd, hs⟩
  · obtain rfl := Host.Outcome.next.inj (hs.symm.trans h)
    exact ⟨⟨[], rfl⟩, [], (List.append_nil _).symm⟩
  · obtain ⟨hcmd, hrsp⟩ := exec_ports (hs.symm.trans h)
    exact ⟨⟨encode i, hcmd ▸ (decodedCommandHasOneSpelling s.cmd i rest hd).2⟩, hrsp⟩
  · obtain rfl := Host.Outcome.next.inj (hs.symm.trans h)
    obtain ⟨cw, -, hcmd⟩ := eq_cons_of_decode_illegal hd
    exact ⟨⟨[cw], hcmd⟩, _, rfl⟩

/-- Settles O53: the two moves of the host one word at a time, and the inversion of a step. -/
theorem portsAreLosslessStreams : Obligations.PortsAreLosslessStreams :=
  ⟨moves_offers, moves_takes, fun _ _ => step_ports⟩

/-! ### Byte reads one after another -/

/-- A byte read that wants all that the Output Region still holds comes to its end first (R156). -/
theorem readOut_to_end {n : Nat} {s u : State} {more : List Byte} (hc : s.cur.toNat ≤ 992) (hn : 992 - s.cur.toNat ≤ n)
    (hrest : readOut (n - (992 - s.cur.toNat)) (advance (992 - s.cur.toNat) s) = .ok (more, u)) :
    readOut n s = .ok (s.buf.readBytes s.cur.toNat (992 - s.cur.toNat) ++ more, u) := by
  rcases Nat.eq_or_lt_of_le hc with hend | hlt
  · rw [hend, Nat.sub_self, Nat.sub_zero, advance_zero] at hrest
    rw [hrest, hend]
    rfl
  · have hstart : chunkStart s = s := if_neg (by omega)
    have hsize : chunkSize n s = 992 - s.cur.toNat := by rw [chunkSize, hstart, Nat.min_eq_right hn]
    have hpass : readOut (n - chunkSize n s) (afterChunk n s) = .ok (more, u) := by rwa [afterChunk, hsize, hstart]
    rw [readOut_of_rest (by omega) hc hpass, hsize, hstart]

/-- A byte read can be cut where its first pass has not yet come to the end of the Output Region (R156). -/
theorem readOut_add_of_within {m n : Nat} {s u : State} {more : List Byte} (hm : s.cur.toNat + m ≤ 992)
    (hrest : readOut n (advance m s) = .ok (more, u)) :
    readOut (m + n) s = .ok (s.buf.readBytes s.cur.toNat m ++ more, u) := by
  have hcur : (advance m s).cur.toNat = s.cur.toNat + m := advance_cur_toNat hm
  rcases Nat.le_total n (992 - (s.cur.toNat + m)) with hin | hout
  · rw [readOut_within (hcur ▸ hin), advance_advance, hcur] at hrest
    obtain ⟨rfl, rfl⟩ := Prod.mk.inj (Except.ok.inj hrest)
    rw [readOut_within (by omega), readBytes_add]
    rfl
  · obtain ⟨tail, v, hend, -⟩ :=
      readOut_steps (n - (992 - (s.cur.toNat + m))) (advance (992 - s.cur.toNat) s) (advance_cur_le (by omega))
    have hlen : m + (992 - (s.cur.toNat + m)) = 992 - s.cur.toNat := by omega
    have hsecond := readOut_to_end (s := advance m s) (by omega) (hcur ▸ hout)
      (by rw [hcur, advance_advance, hlen]; exact hend)
    obtain ⟨rfl, rfl⟩ := Prod.mk.inj (Except.ok.inj (hsecond.symm.trans hrest))
    have hcount : m + n - (992 - s.cur.toNat) = n - (992 - (s.cur.toNat + m)) := by omega
    rw [readOut_to_end (n := m + n) (by omega) (by omega) (by rw [hcount]; exact hend), hcur, ← hlen, readBytes_add,
      List.append_assoc]
    rfl

/-- The first pass of a byte read begins as if its refill, if it needs one, had been made before (R156). -/
theorem readOut_chunkStart {n : Nat} {s : State} (hn : 0 < n) (hc : s.cur.toNat ≤ 992) :
    readOut n (chunkStart s) = readOut n s := by
  have hidem : chunkStart (chunkStart s) = chunkStart s := if_neg (chunkStart_cur_lt hc).ne
  have hsize : chunkSize n (chunkStart s) = chunkSize n s := by rw [chunkSize, hidem]; rfl
  have hafter : afterChunk n (chunkStart s) = afterChunk n s := by rw [afterChunk, hsize, hidem]; rfl
  obtain ⟨more, u, hrest, -⟩ := readOut_steps (n - chunkSize n s) (afterChunk n s) (afterChunk_cur_le hc)
  rw [readOut_of_rest hn hc hrest, readOut_of_rest hn (chunkStart_cur_lt hc).le (by rw [hsize, hafter]; exact hrest), hsize,
    hidem]

/-- Two byte reads one after another are one byte read (R160). -/
theorem readOut_add {m n : Nat} {s t u : State} {bytes more : List Byte} (hm : readOut m s = .ok (bytes, t))
    (hn : readOut n t = .ok (more, u)) : readOut (m + n) s = .ok (bytes ++ more, u) := by
  rcases Nat.eq_zero_or_pos m with rfl | hpos
  · obtain ⟨rfl, rfl⟩ := Prod.mk.inj (Except.ok.inj hm)
    rwa [Nat.zero_add]
  rcases Nat.lt_or_ge 992 s.cur.toNat with hf | hc
  · exact nomatch (readOut_fault hpos hf).symm.trans hm
  clear hpos
  induction m, s, hc using readOut_induction generalizing bytes with
  | zero s hc =>
    obtain ⟨rfl, rfl⟩ := Prod.mk.inj (Except.ok.inj hm)
    rwa [Nat.zero_add]
  | pass m s hpos hc ih =>
    obtain ⟨tail, v, hrest, -⟩ := readOut_steps (m - chunkSize m s) (afterChunk m s) (afterChunk_cur_le hc)
    obtain ⟨rfl, rfl⟩ := Prod.mk.inj (Except.ok.inj ((readOut_of_rest hpos hc hrest).symm.trans hm))
    have hcount : m + n = chunkSize m s + (m - chunkSize m s + n) := by
      have : chunkSize m s ≤ m := Nat.min_le_left _ _
      omega
    rw [← readOut_chunkStart (by omega) hc, hcount, readOut_add_of_within (chunkSize_le hc) (ih hrest), List.append_assoc]

theorem keptByEngine_cur_le : KeptByEngine fun s => s.cur.toNat ≤ 992 where
  answer _ _ h := h
  refill _ _ := by simp
  advance _ _ hn _ := advance_cur_le hn
  seed _ _ _ hc _ := hc

/-- Byte reads one after another are one byte read of the sum, whether they answer or stop (R160). -/
theorem readAll_eq_readOut_sum (ns : List Nat) (s : State) : readAll ns s = readOut ns.sum s := by
  induction ns generalizing s with
  | nil => rfl
  | cons n ns ih =>
    rw [List.sum_cons]
    rcases Nat.eq_zero_or_pos n with rfl | hn
    · simp only [readAll, readOut_zero, ih, Nat.zero_add]
      cases readOut ns.sum s <;> rfl
    rcases Nat.lt_or_ge 992 s.cur.toNat with hf | hc
    · simp only [readAll, readOut_fault hn hf, readOut_fault (Nat.add_pos_left hn _) hf]
    · obtain ⟨bytes, t, hs, hsteps⟩ := readOut_steps n s hc
      obtain ⟨more, u, ht, -⟩ := readOut_steps ns.sum t (keptByEngine_cur_le.engineSteps hsteps hc)
      simp only [readAll, hs, ih, ht, readOut_add hs ht]

/-! ### The pseudo-instructions -/

/-- The parts of a long READ_BYTES make up the whole (R82 (ii)). -/
theorem splitLength_sum (n : Nat) : (splitLength n).sum = n := by
  unfold splitLength
  split
  · exact List.sum_singleton
  · have hdiv : n / lenMax * lenMax + n % lenMax = n := Nat.div_add_mod' n lenMax
    split <;> simp_all

/-- Each part of a long READ_BYTES is encodable (R82 (ii)). -/
theorem le_lenMax_of_mem_splitLength {n l : Nat} (h : l ∈ splitLength n) : l ≤ lenMax := by
  unfold splitLength at h
  split at h
  case isTrue hle => exact (List.mem_singleton.1 h).trans_le hle
  case isFalse =>
    rcases List.mem_append.1 h with hl | hl
    · exact (List.eq_of_mem_replicate hl).le
    · have : n % lenMax < lenMax := Nat.mod_lt n (by decide)
      split at hl
      · exact nomatch hl
      · exact (List.mem_singleton.1 hl).trans_le this.le

/-- NEW seeds the reset core (R82 (i)). -/
theorem moves_new (sel : BkSel) (f : SeedForm) (s : State) :
    moves ((Asm.new sel f).expand.flatMap HostAct.moves) s = exec (.setSeed f.key) (State.resetWith sel) := by
  have hmoves : (Asm.new sel f).expand.flatMap HostAct.moves = .reset sel :: issueMoves (encode (.setSeed f.key)) := by
    simp [Asm.expand, HostAct.moves]
  have hreset : move (.reset sel) s = .next (State.resetWith sel) := rfl
  rw [hmoves, moves_cons_of_next hreset]
  exact wordByWordDelivery _ _ rfl rfl rfl

/-- The result words of CLONE_STATE are a snapshot's seed and its count (R82 (iv)). -/
theorem restore_expand {k : Key} {bc : Word} {r : Vector Word 9} (h : r.toList = k.toList ++ [bc]) :
    (Asm.restore r).expand = [.issue (.tryRestoreState k bc)] := by
  obtain rfl : r = k.push bc := by rw [← Vector.toList_inj, h, Vector.toList_push]
  have hseed : (Vector.ofFn fun j : Fin 8 => (k.push bc)[j.val]) = k := by
    ext j hj
    rw [Vector.getElem_ofFn, Vector.getElem_push_lt]
  have hcount : (k.push bc)[8] = bc := Vector.getElem_push_eq
  simp only [Asm.expand, hseed, hcount]

/-- Settles O51: NEW is a delivery after a reset, and a long READ_BYTES is byte reads one after another. -/
theorem pseudoInstructionsExpand : Obligations.PseudoInstructionsExpand :=
  ⟨moves_new,
    fun n => ⟨splitLength_sum n, fun _ => le_lenMax_of_mem_splitLength, fun s => by
      rw [readAll_eq_readOut_sum, splitLength_sum]⟩,
    fun _ => rfl, fun _ _ _ => restore_expand⟩

end Sys2Proof.Machine

/-! SUPPORT and PROOFS for the family 40_block_transform.md: rotations bit by bit, the quarter-round as four invertible
steps and as an access to four registers, and the feed-forward word by word. -/

namespace Sys2Proof.Machine

/-! ### Rotations -/

/-- The two shifts of a rotation have no 1 bit in common (R102). -/
theorem shl32_and_shr32 (a : Word) {n : Nat} (hn : n ≤ 32) : shl32 a n &&& shr32 a (32 - n) = 0#32 := by
  refine BitVec.eq_of_getLsbD_eq fun i hi => ?_
  rw [BitVec.getLsbD_and, shl32, shr32, BitVec.getLsbD_shiftLeft, BitVec.getLsbD_ushiftRight, BitVec.getLsbD_zero]
  rcases Nat.lt_or_ge i n with h | h
  · simp [h]
  · rw [BitVec.getLsbD_of_ge a (32 - n + i) (by omega), Bool.and_false]

/-- The bits of a rotation (R102). -/
theorem getLsbD_rotl32 (a : Word) {n i : Nat} (hn : n ≤ 32) (hi : i < 32) :
    (rotl32 a n).getLsbD i = a.getLsbD ((i + 32 - n) % 32) := by
  rw [rotl32, BitVec.getLsbD_or, shl32, shr32, BitVec.getLsbD_shiftLeft, BitVec.getLsbD_ushiftRight]
  rcases Nat.lt_or_ge i n with h | h
  · rw [show (i + 32 - n) % 32 = 32 - n + i by omega]
    simp [h]
  · rw [show (i + 32 - n) % 32 = i - n by omega, BitVec.getLsbD_of_ge a (32 - n + i) (by omega)]
    simp [hi, Nat.not_lt.2 h]

/-- A rotation is undone by the rotation through what is left of the word. -/
theorem rotl32_rotl32_sub (a : Word) {n : Nat} (hn : n ≤ 32) : rotl32 (rotl32 a n) (32 - n) = a := by
  refine BitVec.eq_of_getLsbD_eq fun i hi => ?_
  rw [getLsbD_rotl32 _ (by omega) hi, getLsbD_rotl32 _ hn (by omega)]
  congr 1
  omega

/-- Words without a common 1 bit are joined alike by or and by xor. -/
theorem or_eq_xor_of_and_eq_zero {a b : Word} (h : a &&& b = 0#32) : a ||| b = a ^^^ b := by
  refine BitVec.eq_of_getLsbD_eq fun i hi => ?_
  have hbit : (a.getLsbD i && b.getLsbD i) = false := by rw [← BitVec.getLsbD_and, h, BitVec.getLsbD_zero]
  rw [BitVec.getLsbD_or, BitVec.getLsbD_xor]
  cases ha : a.getLsbD i
  · simp
  · simpa [ha] using hbit

/-- Settles O40: the bits come from one shift or the other, and never from both. -/
theorem rotationMovesBits : Obligations.RotationMovesBits := by
  intro a n hmem
  have hn : n ≤ 32 := by
    simp only [List.mem_cons, List.not_mem_nil, or_false] at hmem
    omega
  have hdisj := shl32_and_shr32 a hn
  refine ⟨fun i hi => getLsbD_rotl32 a hn hi, ?_, ?_, or_eq_xor_of_and_eq_zero hdisj,
    (BitVec.add_eq_or_of_and_eq_zero _ _ hdisj).symm⟩
  · rw [shl32, BitVec.toNat_shiftLeft, Nat.shiftLeft_eq]
  · rw [shr32, BitVec.toNat_ushiftRight, Nat.shiftRight_eq_div_pow]

/-! ### The quarter-round as four steps -/

/-- One line of QR (R103), its results in the roles that the next line gives them. -/
def quarterStep (n : Nat) : Word × Word × Word × Word → Word × Word × Word × Word
  | (a, b, c, d) => (c, rotl32 (xor32 d (add32 a b)) n, add32 a b, b)

/-- The inverse of one line of QR. -/
def quarterUnstep (n : Nat) : Word × Word × Word × Word → Word × Word × Word × Word
  | (c, d, a, b) => (a - b, b, c, xor32 (rotl32 d (32 - n)) a)

/-- The quarter-round is its four lines, one after another (R103). -/
theorem quarterRound_eq_quarterSteps :
    (fun p : Word × Word × Word × Word => quarterRound scalarArx p.1 p.2.1 p.2.2.1 p.2.2.2) =
      quarterStep 7 ∘ quarterStep 8 ∘ quarterStep 12 ∘ quarterStep 16 :=
  rfl

/-- XOR32 undoes itself (R101). -/
theorem xor32_xor32_self (a b : Word) : xor32 (xor32 a b) b = a := by
  rw [xor32, xor32, BitVec.xor_assoc, BitVec.xor_self, BitVec.xor_zero]

theorem quarterUnstep_quarterStep {n : Nat} (hn : n ≤ 32) : Function.LeftInverse (quarterUnstep n) (quarterStep n) := by
  rintro ⟨a, b, c, d⟩
  have hsub : add32 a b - b = a := BitVec.add_sub_cancel a b
  simp only [quarterStep, quarterUnstep, hsub, rotl32_rotl32_sub _ hn, xor32_xor32_self]

theorem quarterStep_quarterUnstep {n : Nat} (hn : n ≤ 32) : Function.RightInverse (quarterUnstep n) (quarterStep n) := by
  rintro ⟨c, d, a, b⟩
  have hadd : add32 (a - b) b = a := BitVec.sub_add_cancel a b
  have hrotl : rotl32 (rotl32 d (32 - n)) n = d := by
    simpa only [Nat.sub_sub_self hn] using rotl32_rotl32_sub d (Nat.sub_le 32 n)
  simp only [quarterStep, quarterUnstep, hadd, xor32_xor32_self, hrotl]

/-- Every line of QR is invertible (R103). -/
theorem quarterStep_bijective {n : Nat} (hn : n ≤ 32) : Function.Bijective (quarterStep n) :=
  ⟨(quarterUnstep_quarterStep hn).injective, (quarterStep_quarterUnstep hn).surjective⟩

/-- Settles O41: the quarter-round is four invertible lines, one after another. -/
theorem quarterRoundIsBijective : Obligations.QuarterRoundIsBijective := by
  rw [Obligations.QuarterRoundIsBijective, quarterRound_eq_quarterSteps]
  exact (quarterStep_bijective (by decide)).comp <| (quarterStep_bijective (by decide)).comp <|
    (quarterStep_bijective (by decide)).comp (quarterStep_bijective (by decide))

/-! ### The quarter-round on the working registers -/

section Registers

variable {α : Type} {o : Arx α} {i j k m w : Fin 16}

/-- A quarter-round leaves the registers it does not name as they are (R103). -/
theorem getElem_qrAt_of_not_mem (hw : w ∉ [i, j, k, m]) (x : Vector α 16) : (qrAt o i j k m x)[w] = x[w] := by
  have hne (r : Fin 16) (hr : r ∈ [i, j, k, m]) : r.val ≠ w.val := fun e => hw (Fin.ext e ▸ hr)
  simp only [qrAt, Fin.getElem_fin]
  rw [Vector.getElem_set_ne _ _ (hne m (by simp)), Vector.getElem_set_ne _ _ (hne k (by simp)),
    Vector.getElem_set_ne _ _ (hne j (by simp)), Vector.getElem_set_ne _ _ (hne i (by simp))]

/-- A quarter-round does not see a write to a register that it does not name (R103). -/
theorem qrAt_set_of_not_mem (hw : w ∉ [i, j, k, m]) (x : Vector α 16) (v : α) :
    qrAt o i j k m (x.set w v) = (qrAt o i j k m x).set w v := by
  have hne (r : Fin 16) (hr : r ∈ [i, j, k, m]) : w.val ≠ r.val := fun e => hw (Fin.ext e ▸ hr)
  have hread (r : Fin 16) (hr : r ∈ [i, j, k, m]) : (x.set w v)[r] = x[r] := Vector.getElem_set_ne _ _ (hne r hr)
  simp only [qrAt]
  rw [hread i (by simp), hread j (by simp), hread k (by simp), hread m (by simp),
    Vector.set_comm _ _ (hne i (by simp)), Vector.set_comm _ _ (hne j (by simp)),
    Vector.set_comm _ _ (hne k (by simp)), Vector.set_comm _ _ (hne m (by simp))]

/-- Quarter-rounds on disjoint registers commute, at the scalar words and in lanes alike (R104, R105, R134). -/
theorem qrAt_comm {i' j' k' m' : Fin 16} (h : [i, j, k, m].Disjoint [i', j', k', m']) (x : Vector α 16) :
    qrAt o i j k m (qrAt o i' j' k' m' x) = qrAt o i' j' k' m' (qrAt o i j k m x) := by
  have hout (r : Fin 16) (hr : r ∈ [i', j', k', m']) : r ∉ [i, j, k, m] := fun hr' => h hr' hr
  have hi := hout i' (by simp)
  have hj := hout j' (by simp)
  have hk := hout k' (by simp)
  have hm := hout m' (by simp)
  rw [qrAt.eq_def o i' j' k' m' x, qrAt.eq_def o i' j' k' m' (qrAt o i j k m x)]
  simp only [qrAt_set_of_not_mem hi, qrAt_set_of_not_mem hj, qrAt_set_of_not_mem hk, qrAt_set_of_not_mem hm,
    getElem_qrAt_of_not_mem hi, getElem_qrAt_of_not_mem hj, getElem_qrAt_of_not_mem hk, getElem_qrAt_of_not_mem hm]

end Registers

/-- Settles O42: neither quarter-round names a register of the other. -/
theorem disjointQuarterRoundsCommute : Obligations.DisjointQuarterRoundsCommute :=
  fun _ _ _ _ _ _ _ _ x h => qrAt_comm (List.disjoint_of_nodup_append (l₁ := [_, _, _, _]) h) x

/-! ### The feed-forward -/

section FeedForward

variable {α : Type} (o : Arx α) (key : Key) (x : Vector α 16) {w : Nat}

theorem getElem_feedForward_of_key (hw : w < 16) (hk : 4 ≤ w ∧ w < 12) :
    (feedForward o key x)[w] = o.add x[w] (o.splat (key[w - 4]'(by omega))) := by
  rw [feedForward, Vector.getElem_ofFn]
  exact dif_pos hk

theorem getElem_feedForward_of_not_key (hw : w < 16) (hk : ¬ (4 ≤ w ∧ w < 12)) : (feedForward o key x)[w] = x[w] := by
  rw [feedForward, Vector.getElem_ofFn]
  exact dif_neg hk

end FeedForward

/-- Settles O43: a block is the feed-forward of the state after ROUNDS. -/
theorem feedForwardAddsKeyOnly : Obligations.FeedForwardAddsKeyOnly := fun key _ _ hw =>
  ⟨getElem_feedForward_of_key scalarArx key _ hw, getElem_feedForward_of_not_key scalarArx key _ hw⟩

end Sys2Proof.Machine

/-! SUPPORT and PROOFS for the family 41_batch_kernel.md: a lane of a kernel run as a block, the buffer layout, the three
fills store by store, the backend selection, and what a command with a fill leaves. -/

namespace Sys2Proof.Machine

/-! ### The backend selection -/

/-- Settles O47: the cases are those of the definition. -/
theorem selectionRule : Obligations.SelectionRule := by
  refine ⟨fun h8 => ?_, fun h8 h4 => ?_, fun h8 h4 => ?_, fun _ => rfl⟩
  · simp [select, h8]
  · simp [select, h8, h4]
  · simp [select, h8, h4, Backend.scalar]

/-! ### The block transform through a map of registers -/

/-- A map of registers that commutes with the operations of the block transform, the counters apart (R130, R131). -/
structure ArxHom {α β : Type} (o : Arx α) (p : Arx β) (f : α → β) : Prop where
  add : ∀ a b, f (o.add a b) = p.add (f a) (f b)
  xor : ∀ a b, f (o.xor a b) = p.xor (f a) (f b)
  rotl : ∀ a n, f (o.rotl a n) = p.rotl (f a) n
  splat : ∀ v, f (o.splat v) = p.splat v

namespace ArxHom

variable {α β : Type} {o : Arx α} {p : Arx β} {f : α → β}

theorem map_quarterRound (h : ArxHom o p f) (a b c d : α) :
    Prod.map f (Prod.map f (Prod.map f f)) (quarterRound o a b c d) = quarterRound p (f a) (f b) (f c) (f d) := by
  simp only [quarterRound, Prod.map_apply, h.add, h.xor, h.rotl]

theorem map_qrAt (h : ArxHom o p f) (i j k m : Fin 16) (x : Vector α 16) :
    (qrAt o i j k m x).map f = qrAt p i j k m (x.map f) := by
  simp only [qrAt, Fin.getElem_fin, Vector.map_set, Vector.getElem_map, ← h.map_quarterRound, Prod.map_fst, Prod.map_snd]

theorem map_rounds (h : ArxHom o p f) (x : Vector α 16) : (rounds o x).map f = rounds p (x.map f) := by
  simp only [rounds, doubleRound, columnRound, diagonalRound, h.map_qrAt]

theorem map_initState (h : ArxHom o p f) {c c' : Word} (hc : f (o.counters c) = p.counters c') (key : Key) :
    (initState o key c).map f = initState p key c' := by
  simp [initState, h.splat, hc]

theorem map_feedForward (h : ArxHom o p f) (key : Key) (x : Vector α 16) :
    (feedForward o key x).map f = feedForward p key (x.map f) := by
  ext w hw
  rw [Vector.getElem_map]
  by_cases hk : 4 ≤ w ∧ w < 12
  · rw [getElem_feedForward_of_key o key x hw hk, getElem_feedForward_of_key p key _ hw hk, h.add, h.splat,
      Vector.getElem_map]
  · rw [getElem_feedForward_of_not_key o key x hw hk, getElem_feedForward_of_not_key p key _ hw hk, Vector.getElem_map]

/-- The block transform commutes with such a map, if the counters go to the counters (R134). -/
theorem map_transform (h : ArxHom o p f) {c c' : Word} (hc : f (o.counters c) = p.counters c') (key : Key) :
    (transform o key c).map f = transform p key c' := by
  rw [transform, h.map_feedForward, h.map_rounds, h.map_initState hc, transform]

end ArxHom

/-! ### Lanes -/

/-- Every lanewise operation is the scalar operation in each lane (R130, R131). -/
theorem arxHom_lane {L l : Nat} (hl : l < L) : ArxHom (laneArx L) scalarArx (fun V => V[l]) where
  add A B := by simp [laneArx, vadd, scalarArx]
  xor A B := by simp [laneArx, vxor, scalarArx]
  rotl A n := by simp [laneArx, vrotl, vshl, vshr, scalarArx, rotl32]
  splat v := by simp [laneArx, vsplat, scalarArx]

/-- Lane `l` counts from `ctr0` (R132). -/
theorem counters_lane {L l : Nat} (hl : l < L) (ctr0 : Word) :
    ((laneArx L).counters ctr0)[l] = add32 ctr0 (BitVec.ofNat 32 l) := by
  simp [laneArx, vctr]

/-- Lane `l` of a kernel run, as a whole, is one block (R135). -/
theorem kernel_lane {L l : Nat} (hl : l < L) (key : Key) (ctr0 : Word) :
    (kernel L key ctr0).map (fun V => V[l]) = block key (add32 ctr0 (BitVec.ofNat 32 l)) :=
  (arxHom_lane hl).map_transform (counters_lane hl ctr0) key

/-- Settles O44: the block transform of the lanes, seen in one lane, is the scalar one. -/
theorem laneEquivalence : Obligations.LaneEquivalence := by
  intro L key ctr0 w l hw hl
  rw [← kernel_lane hl, Vector.getElem_map]

/-- The words that register `w` holds, in lane order, after a run of `n` lanes from counter `c` (R135). -/
def laneWords (key : Key) (c n : Nat) (w : Fin 16) : List Word :=
  (List.range n).map fun l => (block key (BitVec.ofNat 32 (c + l)))[w]

theorem laneWords_length (key : Key) (c n : Nat) (w : Fin 16) : (laneWords key c n w).length = n := by
  simp [laneWords]

theorem laneWords_getD (key : Key) (c : Nat) (w : Fin 16) {n l : Nat} (hl : l < n) :
    (laneWords key c n w).getD l 0 = (block key (BitVec.ofNat 32 (c + l)))[w] := by
  simp [laneWords, hl]

/-- The lanes of a run are those of two runs of fewer lanes, one after the other (R140). -/
theorem laneWords_add (key : Key) (c m n : Nat) (w : Fin 16) :
    laneWords key c (m + n) w = laneWords key c m w ++ laneWords key (c + m) n w := by
  simp [laneWords, List.range_add, Nat.add_assoc]

/-- The working registers after a kernel run hold, lane by lane, the words of consecutive blocks (R134, R135). -/
theorem laneRegs_kernel (L : Nat) (key : Key) (c : Nat) (w : Fin 16) :
    (laneRegs (kernel L key (BitVec.ofNat 32 c)))[w] = laneWords key c L w := by
  refine List.ext_getElem (by simp [laneRegs, laneWords]) fun l hl _ => ?_
  have hlL : l < L := by simpa [laneRegs] using hl
  simpa [laneRegs, laneWords, add32, BitVec.ofNat_add] using laneEquivalence L key (BitVec.ofNat 32 c) w l w.isLt hlL

/-! ### The buffer layout -/

/-- An element of lists of one length, joined. -/
theorem getD_flatMap {α β : Type} {f : α → List β} {n : Nat} (hlen : ∀ a, (f a).length = n) (d : β) (as : List α)
    {i k : Nat} (hi : i < as.length) (hk : k < n) : (as.flatMap f).getD (n * i + k) d = (f as[i]).getD k d := by
  induction as generalizing i with
  | nil => exact absurd hi (Nat.not_lt_zero i)
  | cons a as ih =>
    rw [List.flatMap_cons]
    cases i with
    | zero => rw [Nat.mul_zero, Nat.zero_add, List.getD_append _ _ _ _ (by rw [hlen]; exact hk), List.getElem_cons_zero]
    | succ i =>
      have hidx : n * (i + 1) + k = (f a).length + (n * i + k) := by rw [hlen, Nat.mul_succ]; omega
      rw [hidx, List.getD_append_right _ _ _ _ (Nat.le_add_right _ _), Nat.add_sub_cancel_left,
        ih (Nat.lt_of_succ_lt_succ hi), List.getElem_cons_succ]

/-- A group is its rows, and a row is a word of its four blocks (R136). -/
theorem groupWords_eq (key : Key) (g : Nat) : groupWords key g = (List.finRange 16).flatMap (laneWords key (4 * g) 4) := by
  simp only [groupWords, List.map_map]
  rfl

theorem groupWords_length (key : Key) (g : Nat) : (groupWords key g).length = 64 := by
  simp [groupWords, List.length_flatMap]

/-- The layout of R136 in the list of words. -/
theorem fillWords_getD (key : Key) {g w l : Nat} (hg : g < 4) (hw : w < 16) (hl : l < 4) :
    (fillWords key).getD (64 * g + 4 * w + l) 0 = (block key (BitVec.ofNat 32 (4 * g + l)))[w] := by
  rw [Nat.add_assoc, fillWords, getD_flatMap (groupWords_length key) 0 _ (by simpa using hg) (by omega), groupWords_eq,
    getD_flatMap (laneWords_length key _ 4) 0 _ (by simpa using hw) hl, laneWords_getD key _ _ hl]
  simp

/-- The word view of a filled buffer. -/
theorem readWord_fillBuf (key : Key) {j : Nat} (hj : j < 256) : (fillBuf key).readWord j = (fillWords key).getD j 0 := by
  unfold fillBuf
  exact readWord_ofWords _ (fillWords_length key).le j (hj.trans_eq (fillWords_length key).symm)

/-- Settles O45: the three indices are the digits of the word's address. -/
theorem bufferLayout : Obligations.BufferLayout := by
  refine ⟨fun key g w l hg hw hl => ?_, fun i hi => ?_⟩
  · rw [readWord_fillBuf key (by omega), fillWords_getD key hg hw hl]
  · refine ⟨(i / 64, i % 64 / 4, i % 4), by dsimp only; omega, fun ⟨g, w, l⟩ h => ?_⟩
    dsimp only at h
    simp only [Prod.mk.injEq]
    omega

/-! ### The fills store by store -/

/-- Two canonical buffers with the same 256 words are equal (R22, R51). -/
theorem eq_of_readWord_eq {m m' : Memory} (h : m.wf = true) (h' : m'.wf = true)
    (hr : ∀ j, j < 256 → m.readWord j = m'.readWord j) : m = m' := by
  refine memory_ext h h' fun a => ?_
  rcases Nat.lt_or_ge a bufBytes with ha | ha
  · have hlt : a < 1024 := ha
    have hbytes := congrArg bytes32 (hr (a / 4) (by omega))
    simp only [Memory.readWord, readBytes_four, bytes32_le32, List.cons.injEq, and_true] at hbytes
    obtain ⟨h0, h1, h2, h3⟩ := hbytes
    have hdigit : a = 4 * (a / 4) ∨ a = 4 * (a / 4) + 1 ∨ a = 4 * (a / 4) + 2 ∨ a = 4 * (a / 4) + 3 := by omega
    rcases hdigit with e | e | e | e <;> rw [e] <;> assumption
  · rw [readByte_outside h ha, readByte_outside h' ha]

/-- A word read after a write of words (R133). -/
theorem readWord_writeBytes {m : Memory} (h : m.wf = true) {i : Nat} {ws : List Word} (hi : i + ws.length ≤ 256) (j : Nat) :
    (m.writeBytes (4 * i) (bytesOfWords ws)).readWord j =
      if i ≤ j ∧ j < i + ws.length then ws.getD (j - i) 0 else m.readWord j := by
  have hlen := bytesOfWords_length ws
  have hbyte := readByte_writeBytes h (4 * i) (bytesOfWords ws) (by rw [hlen]; simp only [bufBytes]; omega)
  rw [hlen] at hbyte
  simp only [Memory.readWord, readBytes_four, hbyte]
  split
  next hin =>
    have hword (k : Nat) (hk : k < 4) :
        (bytesOfWords ws).getD (4 * j + k - 4 * i) 0 = (bytes32 (ws.getD (j - i) 0)).getD k 0 := by
      rw [← bytesOfWords_getD ws (j - i) k (by omega) hk]
      congr 1
      omega
    rw [if_pos (by omega), if_pos (by omega), if_pos (by omega), if_pos (by omega), hword 1 (by decide),
      hword 2 (by decide), hword 3 (by decide), ← Nat.add_zero (4 * j), hword 0 (by decide), bytes32_getD, le32_bytes32]
  next hout => rw [if_neg (by omega), if_neg (by omega), if_neg (by omega), if_neg (by omega)]

/-- The place of word `w` of block `c` in the buffer (R138). -/
def wordPlace (c : Nat) (w : Fin 16) : Nat := 64 * (c / 4) + 4 * w.val + c % 4

/-- A canonical buffer that holds word `w` of block `c` in its place, for every `c` and `w` with `P c w`. -/
structure Stored (key : Key) (P : Nat → Fin 16 → Prop) (m : Memory) : Prop where
  wf : m.wf = true
  words : ∀ c w, c < 16 → P c w → m.readWord (wordPlace c w) = (block key (BitVec.ofNat 32 c))[w]

theorem Stored.mono {key : Key} {P Q : Nat → Fin 16 → Prop} {m : Memory} (h : Stored key P m)
    (hQ : ∀ c w, c < 16 → Q c w → P c w) : Stored key Q m :=
  ⟨h.wf, fun c w hc hq => h.words c w hc (hQ c w hc hq)⟩

/-- The buffer that holds all words of all 16 blocks is the filled one (R136, R137). -/
theorem eq_fillBuf_of_stored {key : Key} {m : Memory} (h : Stored key (fun _ _ => True) m) : m = fillBuf key := by
  refine eq_of_readWord_eq h.wf (wf_fillBuf key) fun j hj => ?_
  have hw : j % 64 / 4 < 16 := by omega
  have hplace : wordPlace (4 * (j / 64) + j % 4) ⟨j % 64 / 4, hw⟩ = 64 * (j / 64) + 4 * (j % 64 / 4) + j % 4 := by
    simp only [wordPlace]
    omega
  have hj' : j = 64 * (j / 64) + 4 * (j % 64 / 4) + j % 4 := by omega
  have hstored := h.words (4 * (j / 64) + j % 4) ⟨j % 64 / 4, hw⟩ (by omega) trivial
  rw [hj', bufferLayout.1 key _ _ _ (by omega) hw (by omega), ← hplace]
  exact hstored

/-- The part `f` of a fill stores word `w` of block `c`, for every `c` and `w` with `Q c w`, whatever the buffer of `u` has
become: it destroys nothing that is in its place, and writes the buffer alone. -/
def Stores (key : Key) (f : State → Except Fault State) (Q : Nat → Fin 16 → Prop) (u : State) : Prop :=
  ∀ m P, Stored key P m →
    ∃ m', f { u with buf := m } = .ok { u with buf := m' } ∧ Stored key (fun c w => P c w ∨ Q c w) m'

theorem Stores.mono {key : Key} {f : State → Except Fault State} {Q R : Nat → Fin 16 → Prop} {u : State}
    (h : Stores key f Q u) (hR : ∀ c w, c < 16 → R c w → Q c w) : Stores key f R u := fun m P hm => by
  obtain ⟨m', hf, hm'⟩ := h m P hm
  exact ⟨m', hf, hm'.mono fun c w hc => Or.imp_right (hR c w hc)⟩

/-- A part of a fill is known by what it does to the states that differ from `u` in the buffer. -/
theorem Stores.congr {key : Key} {f g : State → Except Fault State} {Q : Nat → Fin 16 → Prop} {u : State}
    (h : Stores key g Q u) (hfg : ∀ m, f { u with buf := m } = g { u with buf := m }) : Stores key f Q u := fun m P hm => by
  obtain ⟨m', hg, hm'⟩ := h m P hm
  exact ⟨m', (hfg m).trans hg, hm'⟩

/-- One part after another. -/
theorem Stores.bind {key : Key} {f g : State → Except Fault State} {Q R : Nat → Fin 16 → Prop} {u : State}
    (hf : Stores key f Q u) (hg : Stores key g R u) :
    Stores key (fun s => f s >>= g) (fun c w => Q c w ∨ R c w) u := fun m P hm => by
  obtain ⟨m₁, hf₁, hm₁⟩ := hf m P hm
  obtain ⟨m₂, hg₂, hm₂⟩ := hg m₁ _ hm₁
  exact ⟨m₂, (congrArg (· >>= g) hf₁).trans hg₂, hm₂.mono fun c w _ => or_assoc.2⟩

/-- The parts of a list, in its order. -/
theorem stores_foldlM {α : Type} {key : Key} {f : State → α → Except Fault State} {Q : α → Nat → Fin 16 → Prop}
    {u : State} (h : ∀ a, Stores key (fun s => f s a) (Q a) u) (as : List α) :
    Stores key (fun s => as.foldlM f s) (fun c w => ∃ a ∈ as, Q a c w) u := by
  induction as with
  | nil => exact fun m P hm => ⟨m, rfl, hm.mono fun c w _ => by simp⟩
  | cons a as ih =>
    simp only [List.foldlM_cons]
    exact ((h a).bind ih).mono fun c w _ => by simp

/-- Word `w` of the `n` blocks from block `c` on: what a vector store of `n` lanes stores (R133). -/
def RowWords (c n : Nat) (w : Fin 16) (c' : Nat) (w' : Fin 16) : Prop := w' = w ∧ c ≤ c' ∧ c' < c + n

/-- A vector store of the words `w` of consecutive blocks of one group puts them in their places (R133, R136). -/
theorem stores_vstore {key : Key} {c n : Nat} (w : Fin 16) (hc : c < 16) (hn : c % 4 + n ≤ 4) (u : State) :
    Stores key (vstore (wordPlace c w) (laneWords key c n w)) (RowWords c n w) u := by
  intro m P hm
  have hlen := laneWords_length key c n w
  have hin : wordPlace c w + n ≤ 256 := by simp only [wordPlace]; omega
  refine ⟨_, vstore_eq _ (by rw [hlen]; omega), wf_writeBytes hm.wf _ ?_, fun c' w' hc' hpq => ?_⟩
  · rw [bytesOfWords_length, hlen]
    simp only [bufBytes]
    omega
  · rw [readWord_writeBytes hm.wf (by rw [hlen]; exact hin), hlen]
    by_cases hnew : RowWords c n w c' w'
    · obtain ⟨rfl, hle, hlt⟩ := hnew
      have hplace : wordPlace c' w' = wordPlace c w' + (c' - c) := by simp only [wordPlace]; omega
      rw [if_pos (by omega), hplace, Nat.add_sub_cancel_left, laneWords_getD key c w' (by omega), Nat.add_sub_cancel' hle]
    · have hother : ¬ (wordPlace c w ≤ wordPlace c' w' ∧ wordPlace c' w' < wordPlace c w + n) := fun hplace => hnew <| by
        simp only [wordPlace] at hplace
        refine ⟨Fin.ext ?_, ?_, ?_⟩ <;> omega
      rw [if_neg hother]
      exact hm.words c' w' hc' (hpq.resolve_right hnew)

/-- The 16 rows of a kernel run store its blocks, if each stores its row of them (R138 to R140). -/
theorem stores_storeRows {key : Key} {store : Fin 16 → State → Except Fault State} {c n : Nat} {u : State}
    (h : ∀ w, Stores key (store w) (RowWords c n w) u) :
    Stores key (storeRows store) (fun c' _ => c ≤ c' ∧ c' < c + n) u :=
  (stores_foldlM h (List.finRange 16)).mono fun _ w' _ hc' => ⟨w', List.mem_finRange w', rfl, hc'⟩

/-- A fill in `n` kernel runs of `L` lanes, in counter order, each with its stores (R138 to R140). -/
def fillRuns (L n : Nat) (store : Nat → Fin 16 → State → Except Fault State) (key : Key) (s : State) : Except Fault State :=
  (List.range n).foldlM (init := s) fun t r => storeRows (store r) (runKernel L key (BitVec.ofNat 32 (L * r)) t)

/-- The stores of the `n` runs are right: each row, made in a state whose registers hold the run's words, stores them. -/
def StoresRows (L n : Nat) (store : Nat → Fin 16 → State → Except Fault State) (key : Key) : Prop :=
  ∀ r, r < n → ∀ w, ∀ u : State, u.x[w] = laneWords key (L * r) L w → Stores key (store r w) (RowWords (L * r) L w) u

/-- The state after `n` kernel runs of `L` lanes without their stores. -/
def ranKernels (L : Nat) (key : Key) (s : State) : Nat → State
  | 0 => s
  | n + 1 => runKernel L key (BitVec.ofNat 32 (L * n)) s

/-- Only the last kernel run is left in the transient registers (R26, R30; log entry 4). -/
theorem runKernel_ranKernels (L : Nat) (key : Key) (ctr0 : Word) (s : State) (n : Nat) (m : Memory) :
    runKernel L key ctr0 { ranKernels L key s n with buf := m } = { runKernel L key ctr0 s with buf := m } := by
  cases n <;> rfl

/-- The runs of a fill whose stores are right leave all their blocks in the buffer. -/
theorem fillRuns_stored {L n : Nat} {store : Nat → Fin 16 → State → Except Fault State} {key : Key} {s : State}
    (hs : s.buf.wf = true) (hstore : StoresRows L n store key) :
    ∃ m, fillRuns L n store key s = .ok { ranKernels L key s n with buf := m } ∧ Stored key (fun c _ => c < L * n) m := by
  induction n with
  | zero => exact ⟨s.buf, rfl, hs, fun c _ _ h => absurd h (Nat.not_lt_zero c)⟩
  | succ n ih =>
    obtain ⟨m, hruns, hm⟩ := ih fun r hr => hstore r (Nat.lt_succ_of_lt hr)
    obtain ⟨m', hrows, hm'⟩ := stores_storeRows (u := runKernel L key (BitVec.ofNat 32 (L * n)) s)
      (fun w => hstore n (Nat.lt_succ_self n) w _ (laneRegs_kernel L key (L * n) w)) m _ hm
    refine ⟨m', ?_, hm'.mono fun c _ _ hc => ?_⟩
    · rw [fillRuns] at hruns ⊢
      rw [List.range_succ, List.foldlM_append, hruns]
      simp only [List.foldlM_cons, List.foldlM_nil, bind_pure]
      exact (congrArg (storeRows (store n)) (runKernel_ranKernels L key _ s n m)).trans hrows
    · rw [Nat.mul_succ] at hc
      omega

/-- `s` after a fill by the backend of lane width `L` (R137; the transient registers: log entry 4). -/
def filledBy (L : Lanes) (key : Key) (s : State) : State :=
  { s with buf := fillBuf key, x := lastRegs L key, ctr := lastCtr L }

/-- The engine's FILL is a fill by the core's own backend (R141). -/
theorem fill_eq_filledBy (key : Key) (s : State) : fill key s = filledBy s.bk.val key s := rfl

/-- The runs of the lane width `L` that a fill needs leave the filled buffer, and the last run in the transient
registers. -/
theorem fillRuns_eq {L : Lanes} {n : Nat} {store : Nat → Fin 16 → State → Except Fault State} {key : Key} {s : State}
    (hs : s.buf.wf = true) (hn : L.count * (n + 1) = 16) (hlast : lastCtr L = BitVec.ofNat 32 (L.count * n))
    (hstore : StoresRows L.count (n + 1) store key) :
    fillRuns L.count (n + 1) store key s = .ok (filledBy L key s) := by
  obtain ⟨m, hruns, hm⟩ := fillRuns_stored hs hstore
  obtain rfl : m = fillBuf key := eq_fillBuf_of_stored (hm.mono fun c _ hc _ => hn ▸ hc)
  rw [hruns, filledBy, lastRegs, hlast]
  rfl

/-- FILL_1 stores one block per run, word by word (R138). -/
theorem fill1_eq (key : Key) {s : State} (hs : s.buf.wf = true) :
    fill1 key s = .ok (filledBy .one key s) := by
  have hruns : fill1 key s = fillRuns 1 16 (fun c w u => vstore (wordPlace c w) u.x[w] u) key s := by
    simp only [fill1, fillRuns, Nat.one_mul, wordPlace]
  rw [hruns]
  refine fillRuns_eq (L := .one) (n := 15) hs rfl rfl fun c hc w u hx => ?_
  simp only [Lanes.count, Nat.one_mul] at hx ⊢
  exact (stores_vstore w hc (by omega) u).congr fun m => by simp only [hx]

/-- FILL_4 stores one group per run, row by row (R139). -/
theorem fill4_eq (key : Key) {s : State} (hs : s.buf.wf = true) :
    fill4 key s = .ok (filledBy .four key s) := by
  refine fillRuns_eq (L := .four) (n := 3) (store := fun g w u => vstore (64 * g + 4 * w.val) u.x[w] u) hs rfl rfl
    fun g hg w u hx => ?_
  have hplace : 64 * g + 4 * w.val = wordPlace (4 * g) w := by simp only [wordPlace]; omega
  simp only [Lanes.count] at hx ⊢
  exact (stores_vstore w (by omega) (by omega) u).congr fun m => by simp only [hx, hplace]

/-- FILL_8 stores two groups per run, each from one half of the rows (R140). -/
theorem fill8_eq (key : Key) {s : State} (hs : s.buf.wf = true) :
    fill8 key s = .ok (filledBy .eight key s) := by
  refine fillRuns_eq (L := .eight) (n := 1) (store := fun h w u => do
      let v ← vstore (64 * (2 * h) + 4 * w.val) (u.x[w].take 4) u
      vstore (64 * (2 * h + 1) + 4 * w.val) (u.x[w].drop 4) v) hs rfl rfl fun h hh w u hx => ?_
  have hlow : 64 * (2 * h) + 4 * w.val = wordPlace (8 * h) w := by simp only [wordPlace]; omega
  have hhigh : 64 * (2 * h + 1) + 4 * w.val = wordPlace (8 * h + 4) w := by simp only [wordPlace]; omega
  have hsplit : u.x[w] = laneWords key (8 * h) 4 w ++ laneWords key (8 * h + 4) 4 w := hx.trans (laneWords_add key _ 4 4 w)
  have hlen := laneWords_length key (8 * h) 4 w
  have hstores := (stores_vstore (key := key) (c := 8 * h) (n := 4) w (by omega) (by omega) u).bind
    (stores_vstore (c := 8 * h + 4) (n := 4) w (by omega) (by omega) u)
  refine (hstores.mono fun c' w' _ hq => ?_).congr fun m => ?_
  · simp only [Lanes.count, RowWords] at hq ⊢
    omega
  · simp only [hsplit, hlow, hhigh, List.take_left' hlen, List.drop_left' hlen]

/-- The stores of every backend leave the filled buffer, and its last kernel run in the transient registers (R141, R142). -/
theorem fillBackend_eq (L : Lanes) (key : Key) {s : State} (hs : s.buf.wf = true) :
    fillBackend L key s = .ok (filledBy L key s) := by
  cases L with
  | one => exact fill1_eq key hs
  | four => exact fill4_eq key hs
  | eight => exact fill8_eq key hs

/-- Settles O46: every backend's stores come to the same state but for the transient registers. -/
theorem allBackendsFillAlike : Obligations.AllBackendsFillAlike :=
  ⟨fun L key _ hs => ⟨_, fillBackend_eq L key hs, rfl⟩, fun key s hs => by
    rw [fill_eq_filledBy, fillBackend_eq s.bk.val key hs]⟩

/-! ### Commands with a fill -/

/-- What a fill leaves, and the moves of the cursor and the response after it: the buffer of its own key, the transient
registers of the last kernel run, a seeded core; the backend and the command port as they were (R137, R151, R152). -/
structure LeftByFill (bk : Backend) (cmd : List Word) (t : State) : Prop where
  buf : t.buf = fillBuf t.key
  x : t.x = lastRegs bk.val t.key
  ctr : t.ctr = lastCtr bk.val
  seeded : t.seeded = true
  bk_eq : t.bk = bk
  cmd_eq : t.cmd = cmd

theorem leftByFill_refill {s : State} (h : s.seeded = true) : LeftByFill s.bk s.cmd (refill s) :=
  ⟨rfl, rfl, rfl, h, rfl, rfl⟩

theorem leftByFill_seedFill (key : Key) (c : Half) (s : State) :
    LeftByFill s.bk s.cmd { seedFill key s with cur := c } :=
  ⟨rfl, rfl, rfl, rfl, rfl, rfl⟩

/-- After a fill every further work on the engine leaves what its own last fill leaves. -/
theorem keptByEngine_leftByFill (bk : Backend) (cmd : List Word) : KeptByEngine (LeftByFill bk cmd) where
  answer _ _ h := ⟨h.buf, h.x, h.ctr, h.seeded, h.bk_eq, h.cmd_eq⟩
  refill s h := by
    obtain ⟨-, -, -, hs, rfl, rfl⟩ := h
    exact leftByFill_refill hs
  advance _ _ _ h := ⟨h.buf, h.x, h.ctr, h.seeded, h.bk_eq, h.cmd_eq⟩
  seed key c s _ h := by
    obtain ⟨-, -, -, -, rfl, rfl⟩ := h
    exact leftByFill_seedFill key c s

/-- A word read with too few bytes left refills (R154, R155). -/
theorem readWhole_leftByFill {n : Nat} {s t : State} {bytes : List Byte} (hn : n ≤ 992) (hs : s.seeded = true)
    (hleft : 992 - s.cur.toNat < n) (h : readWhole n s = .ok (bytes, t)) : LeftByFill s.bk s.cmd t := by
  rcases Nat.lt_or_ge 992 s.cur.toNat with hf | hc
  · exact nomatch (readWhole_fault hf).symm.trans h
  · rw [readWhole_eq hn hc, if_pos hleft] at h
    obtain ⟨-, rfl⟩ := Prod.mk.inj (Except.ok.inj h)
    exact (keptByEngine_leftByFill s.bk s.cmd).advance n _ (by simpa using hn) (leftByFill_refill hs)

/-- A byte read at the end of the Output Region refills first (R156). -/
theorem readOut_at_end {n : Nat} {s : State} (hn : 0 < n) (hend : s.cur.toNat = 992) (hs : s.seeded = true) :
    ∃ bytes t, readOut n s = .ok (bytes, t) ∧ LeftByFill s.bk s.cmd t := by
  have hstart : chunkStart s = refill s := if_pos hend
  obtain ⟨bytes, t, hread, hsteps⟩ := readOut_steps n (refill s) (by simp)
  refine ⟨bytes, t, ?_, (keptByEngine_leftByFill s.bk s.cmd).engineSteps hsteps (leftByFill_refill hs)⟩
  rw [← readOut_chunkStart hn hend.le, hstart, hread]

/-- A byte read that wants more than is left comes to the end of the Output Region and refills there (R156). -/
theorem readOut_leftByFill {n : Nat} {s t : State} {bytes : List Byte} (hs : s.seeded = true)
    (hleft : 992 - s.cur.toNat < n) (h : readOut n s = .ok (bytes, t)) : LeftByFill s.bk s.cmd t := by
  rcases Nat.lt_or_ge 992 s.cur.toNat with hf | hc
  · exact nomatch (readOut_fault (by omega) hf).symm.trans h
  · have hend : (advance (992 - s.cur.toNat) s).cur.toNat = 992 := (advance_cur_toNat (by omega)).trans (by omega)
    obtain ⟨more, u, hrest, hu⟩ := readOut_at_end (Nat.sub_pos_of_lt hleft) hend hs
    obtain ⟨-, rfl⟩ := Prod.mk.inj (Except.ok.inj ((readOut_to_end hc hleft.le hrest).symm.trans h))
    exact hu

theorem refillCount_pos_iff {c len : Nat} : 0 < refillCount c len ↔ 992 - c < len := by
  rw [Nat.pos_iff_ne_zero, ne_eq, refillCount_eq_zero_iff, Nat.not_le]

/-- A result made from the bytes that were read comes with the state that the read leaves. -/
theorem ok_of_map_eq_ok {p : Except Fault (List Byte × State)} {f : List Byte → List Byte} {t : State} {bytes : List Byte}
    (h : (p.map fun q => (f q.1, q.2)) = .ok (bytes, t)) : ∃ read, p = .ok (read, t) := by
  cases p with
  | error e => exact nomatch h
  | ok q => exact ⟨q.1, by rw [← (Prod.mk.inj (Except.ok.inj h)).2]⟩

/-- The body of a command that performs a fill leaves what the fill leaves (R166). -/
theorem commandBody_leftByFill {i : Instr} {s t : State} {bytes : List Byte} (he : commandError i s = none)
    (hfill : 0 < fillCount i s) (h : commandBody i s = .ok (bytes, t)) : LeftByFill s.bk s.cmd t := by
  have hs : isRead i = true → s.seeded = true := fun hi => seeded_of_isRead hi he
  cases i with
  | setSeed seed =>
    obtain ⟨-, rfl⟩ := Prod.mk.inj (Except.ok.inj h)
    exact leftByFill_seedFill seed 0 s
  | tryRestoreState seed bc =>
    obtain ⟨-, rfl⟩ := Prod.mk.inj (Except.ok.inj h)
    exact leftByFill_seedFill seed _ s
  | cloneState => exact nomatch hfill
  | readU32 =>
    obtain ⟨read, hread⟩ := ok_of_map_eq_ok (f := bytes32 ∘ le32) h
    have hleft : 992 - s.cur.toNat < 4 := by simpa [fillCount, hs rfl, Nat.pos_iff_ne_zero] using hfill
    exact readWhole_leftByFill (by decide) (hs rfl) hleft hread
  | readU64 =>
    obtain ⟨read, hread⟩ := ok_of_map_eq_ok (f := bytes64 ∘ le64) h
    have hleft : 992 - s.cur.toNat < 8 := by simpa [fillCount, hs rfl, Nat.pos_iff_ne_zero] using hfill
    exact readWhole_leftByFill (by decide) (hs rfl) hleft hread
  | readBytes len =>
    simp only [fillCount, hs rfl, if_true, refillCount_pos_iff] at hfill
    exact readOut_leftByFill (hs rfl) hfill h
  | readSeed =>
    simp only [fillCount, hs rfl, if_true, refillCount_pos_iff] at hfill
    exact readOut_leftByFill (hs rfl) hfill h

/-- Settles O30: an error performs no fill, and the response after the body writes the response port alone. -/
theorem fillLeavesFilledBuffer : Obligations.FillLeavesFilledBuffer := by
  intro i s t h hfill
  cases he : commandError i s with
  | some st => exact absurd (fillCount_of_error he) hfill.ne'
  | none =>
    rw [exec_of_body he] at h
    cases hb : commandBody i s with
    | error f => rw [hb] at h; exact nomatch h
    | ok p =>
      rw [hb, finish_respondRead_ok] at h
      obtain rfl := Host.Outcome.next.inj h
      have hleft := (keptByEngine_leftByFill s.bk s.cmd).answer _ (respond p.1 p.2).rsp (commandBody_leftByFill he hfill hb)
      exact ⟨hleft.buf, hleft.x, hleft.ctr, hleft.seeded, hleft.bk_eq, hleft.cmd_eq⟩

end Sys2Proof.Machine

/-! SUPPORT and PROOFS for the family 42_stream_engine.md: the refill, the word reads and where they agree with byte reads,
the position of a core in the canonical stream, and what the reads return and leave. -/

namespace Sys2Proof.Machine

/-! ### Seeding and refilling -/

/-- Settles O20: SET_SEED is SEED_FILL and a response without result bytes, and neither looks at SEEDED. -/
theorem setSeedResult : Obligations.SetSeedResult := fun p s =>
  ⟨respond [] (seedFill p s), rfl, rfl, rfl, rfl, rfl, rfl, rfl, rfl⟩

/-- Settles O28: the new key is read from the old buffer, and the layout is that of every fill. -/
theorem refillRatchetsThenFills : Obligations.RefillRatchetsThenFills := fun s =>
  ⟨fun j hj => by simp [nextKey, nextKeyWord],
    fun g w l hg hw hl => bufferLayout.1 (refill s).key g w l hg hw hl, rfl, rfl, rfl, rfl, rfl⟩

/-! ### Reads as commands -/

theorem commandError_of_isRead {i : Instr} (hi : isRead i = true) (s : State) :
    commandError i s = if s.seeded = true then none else some .unseeded := by
  cases i with
  | setSeed | cloneState | tryRestoreState => exact nomatch hi
  | _ => rfl

/-- On an unseeded core every read raises Unseeded (R193). -/
theorem commandError_of_unseeded {i : Instr} {s : State} (hi : isRead i = true) (hs : s.seeded = false) :
    commandError i s = some .unseeded := by
  simp [commandError_of_isRead hi, hs]

/-- On an unseeded core every read answers with the error and does nothing else (R193). -/
theorem exec_read_of_unseeded {i : Instr} {s : State} (hi : isRead i = true) (hs : s.seeded = false) :
    exec i s = .next { s with rsp := s.rsp ++ [0x00000003] } :=
  exec_of_error (commandError_of_unseeded hi hs)

/-- On a seeded core a read is its body and the response to it (R150). -/
theorem exec_read_of_seeded {i : Instr} {s : State} (hi : isRead i = true) (hs : s.seeded = true) :
    exec i s = finish (respondRead (commandBody i s)) :=
  exec_of_body ((commandError_of_isRead hi s).trans (if_pos hs))

/-- A read that gets its bytes responds with them. -/
theorem exec_read_of_body {i : Instr} {s t : State} {bytes : List Byte} (hi : isRead i = true) (hs : s.seeded = true)
    (hb : commandBody i s = .ok (bytes, t)) : exec i s = .next (respond bytes t) := by
  rw [exec_read_of_seeded hi hs, hb, finish_respondRead_ok]

/-- Settles O24: no pass of the byte loop is made. -/
theorem readBytesZeroChangesNothing : Obligations.ReadBytesZeroChangesNothing := fun s hs =>
  exec_read_of_body (i := .readBytes 0) rfl hs (readOut_zero s)

/-- Settles O33: reads one after another are one read of the sum. -/
theorem readDecomposition : Obligations.ReadDecomposition := readAll_eq_readOut_sum

/-! ### Word reads -/

/-- A word read with too few bytes left is made from the refilled buffer's first bytes (R154, R155). -/
theorem readWhole_of_refill {n : Nat} {s : State} (hn : n ≤ 992) (hc : s.cur.toNat ≤ 992) (hleft : 992 - s.cur.toNat < n) :
    readWhole n s = .ok ((refill s).buf.readBytes 0 n, advance n (refill s)) := by
  rw [readWhole_eq hn hc, if_pos hleft]
  rfl

/-- A conversion that keeps the bytes of every read of `n` bytes keeps the result of a word read. -/
theorem readWhole_map_id {n : Nat} (hn : n ≤ 992) {f : List Byte → List Byte}
    (hf : ∀ (m : Memory) a, f (m.readBytes a n) = m.readBytes a n) (s : State) :
    ((readWhole n s).map fun p => (f p.1, p.2)) = readWhole n s := by
  rcases Nat.lt_or_ge 992 s.cur.toNat with hfault | hc
  · rw [readWhole_fault hfault]
    rfl
  · simp only [readWhole_eq hn hc, Except.map, hf]

theorem bytes32_le32_readBytes (m : Memory) (a : Nat) : bytes32 (le32 (m.readBytes a 4)) = m.readBytes a 4 :=
  bytes32_le32 _ _ _ _

theorem bytes64_le64_readBytes (m : Memory) (a : Nat) : bytes64 (le64 (m.readBytes a 8)) = m.readBytes a 8 :=
  bytes64_le64 _ _ _ _ _ _ _ _

/-- READ_U32's result bytes are the bytes it reads (R154). -/
theorem commandBody_readU32 (s : State) : commandBody .readU32 s = readWhole 4 s :=
  readWhole_map_id (f := fun bs => bytes32 (le32 bs)) (by decide) bytes32_le32_readBytes s

/-- READ_U64's result bytes are the bytes it reads (R155). -/
theorem commandBody_readU64 (s : State) : commandBody .readU64 s = readWhole 8 s :=
  readWhole_map_id (f := fun bs => bytes64 (le64 bs)) (by decide) bytes64_le64_readBytes s

theorem packWords_readBytes_four (m : Memory) (a : Nat) : packWords (m.readBytes a 4) = [le32 (m.readBytes a 4)] := rfl

theorem packWords_readBytes_eight (m : Memory) (a : Nat) :
    packWords (m.readBytes a 8) = [le32 (m.readBytes a 4), le32 (m.readBytes (a + 4) 4)] := by
  rw [readBytes_add m a 4 4]
  rfl

/-- Settles O21: with 4 bytes left the read is made at the cursor, and otherwise after the refill. -/
theorem readU32Result : Obligations.ReadU32Result := by
  refine fun s => ⟨exec_read_of_unseeded rfl, fun hs hc => ?_, fun hs hlo hhi => ?_⟩
  · have hb := (commandBody_readU32 s).trans (readWhole_within (by decide) (by omega))
    rw [exec_read_of_body rfl hs hb, respond, packWords_readBytes_four]
    rfl
  · have hb := (commandBody_readU32 s).trans (readWhole_of_refill (by decide) hhi (by omega))
    rw [exec_read_of_body rfl hs hb, respond, packWords_readBytes_four]
    rfl

/-- Settles O22: with 8 bytes left the read is made at the cursor, and otherwise after the refill. -/
theorem readU64Result : Obligations.ReadU64Result := by
  refine fun s => ⟨exec_read_of_unseeded rfl, fun hs hc => ?_, fun hs hlo hhi => ?_⟩
  · have hb := (commandBody_readU64 s).trans (readWhole_within (by decide) (by omega))
    rw [exec_read_of_body rfl hs hb, respond, packWords_readBytes_eight]
    rfl
  · have hb := (commandBody_readU64 s).trans (readWhole_of_refill (by decide) hhi (by omega))
    rw [exec_read_of_body rfl hs hb, respond, packWords_readBytes_eight]
    rfl

/-! ### Where word reads and byte reads agree -/

/-- A word read does what the byte read does if its bytes lie in one buffer (R162). -/
theorem readWhole_eq_readOut {n : Nat} {s : State} (hn : 0 < n) (hn' : n ≤ 992)
    (h : s.cur.toNat ≤ 992 - n ∨ s.cur.toNat = 992) : readWhole n s = readOut n s := by
  rcases h with hin | hend
  · rw [readWhole_within hn (by omega), readOut_within (by omega)]
  · have hstart : chunkStart s = refill s := if_pos hend
    rw [readWhole_of_refill hn' hend.le (by omega), ← readOut_chunkStart hn hend.le, hstart,
      readOut_within (by simpa using hn')]
    rfl

/-- A byte read across the end of the Output Region leaves the cursor behind the bytes it takes from the new buffer
(R156). -/
theorem readOut_across {n : Nat} {s : State} (hc : s.cur.toNat ≤ 992) (hn : n ≤ 992) (hleft : 992 - s.cur.toNat < n) :
    ∃ bytes t, readOut n s = .ok (bytes, t) ∧ t.cur.toNat = n - (992 - s.cur.toNat) := by
  have hend : (advance (992 - s.cur.toNat) s).cur.toNat = 992 := (advance_cur_toNat (by omega)).trans (by omega)
  have hrest := (readWhole_eq_readOut (n := n - (992 - s.cur.toNat)) (by omega) (by omega) (.inr hend)).symm.trans
    (readWhole_of_refill (by omega) hend.le (by omega))
  exact ⟨_, _, readOut_to_end hc hleft.le hrest, (advance_cur_toNat (by simp; omega)).trans (by simp)⟩

/-- A word read answers and leaves what the byte read does exactly where it does not straddle the end of the Output Region:
where it does, the word read alone skips the old buffer's tail, and the cursors differ (R157, R162). -/
theorem respondRead_readWhole_eq_iff {n : Nat} {s : State} (hn : 0 < n) (hn' : n ≤ 992) (hc : s.cur.toNat ≤ 992) :
    finish (respondRead (readWhole n s)) = finish (respondRead (readOut n s)) ↔
      s.cur.toNat ≤ 992 - n ∨ s.cur.toNat = 992 := by
  refine ⟨fun h => ?_, fun h => by rw [readWhole_eq_readOut hn hn' h]⟩
  by_contra hstraddle
  obtain ⟨bytes, t, hread, hcur⟩ := readOut_across hc hn' (by omega)
  rw [readWhole_of_refill hn' hc (by omega), hread, finish_respondRead_ok, finish_respondRead_ok] at h
  have hword : (advance n (refill s)).cur.toNat = n := (advance_cur_toNat (by simpa using hn')).trans (by simp)
  have hsame := congrArg State.cur (Host.Outcome.next.inj h)
  rw [respond_cur, respond_cur] at hsame
  rw [hsame] at hword
  omega

/-- A word read of `n` bytes as a command is the byte read of its width exactly on unseeded cores and where it does not
straddle the end of the Output Region (R162). -/
theorem exec_wordRead_eq_iff {i : Instr} {n : Nat} (hi : isRead i = true) (hbody : ∀ s, commandBody i s = readWhole n s)
    (hn : 0 < n) (hn' : n ≤ 992) {s : State} (hc : s.cur.toNat ≤ 992) :
    exec i s = exec (.readBytes n) s ↔ s.seeded = false ∨ s.cur.toNat ≤ 992 - n ∨ s.cur.toNat = 992 := by
  cases hs : s.seeded with
  | false => simp [exec_read_of_unseeded hi hs, exec_read_of_unseeded (i := .readBytes n) rfl hs]
  | true =>
    rw [exec_read_of_seeded hi hs, exec_read_of_seeded (i := .readBytes n) rfl hs, hbody, commandBody,
      respondRead_readWhole_eq_iff hn hn' hc]
    simp

/-- Settles O35: the two widths of one fact. -/
theorem wordAndByteReadsAgree : Obligations.WordAndByteReadsAgree := fun _ hc =>
  ⟨exec_wordRead_eq_iff rfl commandBody_readU32 (by decide) (by decide) hc,
    exec_wordRead_eq_iff rfl commandBody_readU64 (by decide) (by decide) hc⟩

/-! ### The position of a core in the canonical stream -/

/-- The keys of the iterations follow one another by the ratchet (R159). -/
theorem ratchetTimes_succ (i : Nat) (key : Key) : ratchetTimes (i + 1) key = ratchet (ratchetTimes i key) := by
  induction i generalizing key with
  | zero => rfl
  | succ i ih => exact ih (ratchet key)

theorem streamBytes_add (key : Key) (p m n : Nat) :
    streamBytes key p (m + n) = streamBytes key p m ++ streamBytes key (p + m) n := by
  simp [streamBytes, List.range_add, Nat.add_assoc]

/-- The part of the stream that one iteration gives is a part of its Output Region (R159). -/
theorem streamBytes_within (key : Key) (i : Nat) {c n : Nat} (h : c + n ≤ 992) :
    streamBytes key (992 * i + c) n = (fillBuf (ratchetTimes i key)).readBytes c n := by
  refine List.map_congr_left fun j hj => ?_
  have hj : j < n := List.mem_range.1 hj
  have hdiv : (992 * i + c + j) / 992 = i := by omega
  have hmod : (992 * i + c + j) % 992 = c + j := by omega
  rw [streamByte, hdiv, hmod]

/-- `s` holds the buffer of iteration `i` of the canonical stream of `key`: its next byte is at `992 * i + CUR` (R159). -/
structure InIteration (key : Key) (i : Nat) (s : State) : Prop where
  key_eq : s.key = ratchetTimes i key
  buf_eq : s.buf = fillBuf s.key
  cur_le : s.cur.toNat ≤ 992

namespace InIteration

variable {key : Key} {i : Nat} {s : State}

theorem respond (h : InIteration key i s) (bytes : List Byte) : InIteration key i (respond bytes s) :=
  ⟨h.key_eq, h.buf_eq, h.cur_le⟩

theorem advance (h : InIteration key i s) {n : Nat} (hn : s.cur.toNat + n ≤ 992) : InIteration key i (advance n s) :=
  ⟨h.key_eq, h.buf_eq, advance_cur_le hn⟩

/-- A refill goes on to the next iteration (R152). -/
theorem refill (h : InIteration key i s) : InIteration key (i + 1) (refill s) := by
  refine ⟨?_, rfl, by simp⟩
  rw [ratchetTimes_succ, ← h.key_eq, refill_key, h.buf_eq, ratchet]

/-- The bytes at the cursor are the stream's next bytes (R159). -/
theorem readBytes_eq (h : InIteration key i s) {n : Nat} (hn : s.cur.toNat + n ≤ 992) :
    s.buf.readBytes s.cur.toNat n = streamBytes key (992 * i + s.cur.toNat) n := by
  rw [streamBytes_within key i hn, ← h.key_eq, h.buf_eq]

/-- The refill before a pass of the byte loop, made only where the iteration is read to its end, skips nothing (R156). -/
theorem chunkStart (h : InIteration key i s) :
    ∃ j, InIteration key j (chunkStart s) ∧ 992 * j + (chunkStart s).cur.toNat = 992 * i + s.cur.toNat := by
  unfold Machine.chunkStart
  split
  next hend => exact ⟨i + 1, h.refill, by rw [hend, refill_cur]; simp; omega⟩
  next => exact ⟨i, h, rfl⟩

end InIteration

/-- The next byte of `s` is at position `p` of the canonical stream of `key`. The refill is lazy: a core that has read an
iteration to its end is still in it, so that only the first iteration is seen with CUR = 0 (R159, decision D12). -/
def AtPosition (key : Key) (p : Nat) (s : State) : Prop :=
  ∃ i, InIteration key i s ∧ 992 * i + s.cur.toNat = p ∧ (0 < i → 0 < s.cur.toNat)

namespace AtPosition

variable {key : Key} {p : Nat} {s : State}

theorem of_good (h : Good s) (hs : s.seeded = true) : AtPosition s.key s.cur.toNat s :=
  ⟨0, ⟨rfl, h.buf_fill hs, h.cur_le hs⟩, by omega, nofun⟩

/-- The state SET_SEED leaves is at the start of the seed's stream (R153). -/
theorem of_setSeed (seed : Key) (s : State) : AtPosition seed 0 (Machine.respond [] (seedFill seed s)) :=
  ⟨0, ⟨rfl, rfl, by simp⟩, rfl, nofun⟩

theorem cur_le (h : AtPosition key p s) : s.cur.toNat ≤ 992 := by
  obtain ⟨i, hi, -, -⟩ := h
  exact hi.cur_le

theorem respond (h : AtPosition key p s) (bytes : List Byte) : AtPosition key p (respond bytes s) := by
  obtain ⟨i, hi, hpos, hlazy⟩ := h
  exact ⟨i, hi.respond bytes, hpos, hlazy⟩

/-- A pass of the byte loop reads the stream's next bytes and leaves the core behind them (R156). -/
theorem pass (h : AtPosition key p s) {n : Nat} (hn : 0 < n) :
    (chunkStart s).buf.readBytes (chunkStart s).cur.toNat (chunkSize n s) = streamBytes key p (chunkSize n s) ∧
      AtPosition key (p + chunkSize n s) (afterChunk n s) := by
  obtain ⟨i, hi, rfl, -⟩ := h
  obtain ⟨j, hstart, hpos⟩ := hi.chunkStart
  have hsize := chunkSize_le (n := n) hi.cur_le
  have hpositive := chunkSize_pos hn hi.cur_le
  have hcur : (afterChunk n s).cur.toNat = (chunkStart s).cur.toNat + chunkSize n s := advance_cur_toNat hsize
  exact ⟨by rw [hstart.readBytes_eq hsize, hpos], j, hstart.advance hsize, by omega, fun _ => by omega⟩

/-- In the stream of its first key, a core's position fixes its key and its cursor, by the formulas of R156. -/
theorem key_and_cursor {c n : Nat} (h : AtPosition key (c + n) s) (hc : c ≤ 992) :
    s.key = ratchetTimes (refillCount c n) key ∧ s.cur.toNat = cursorAfter c n := by
  obtain ⟨i, hi, hpos, hlazy⟩ := h
  have hle := hi.cur_le
  have hcount : i = refillCount c n := by
    unfold refillCount
    split <;> omega
  refine ⟨hcount ▸ hi.key_eq, ?_⟩
  unfold cursorAfter
  split <;> omega

theorem buf_eq (h : AtPosition key p s) : s.buf = fillBuf s.key := by
  obtain ⟨i, hi, -, -⟩ := h
  exact hi.buf_eq

end AtPosition

/-- A byte read returns the next bytes of the stream and leaves the core behind them (R159). -/
theorem readOut_stream {key : Key} (n : Nat) (s : State) (hc : s.cur.toNat ≤ 992) :
    ∀ p, AtPosition key p s → ∃ t, readOut n s = .ok (streamBytes key p n, t) ∧ AtPosition key (p + n) t := by
  induction n, s, hc using readOut_induction with
  | zero s hc => exact fun p h => ⟨s, rfl, h⟩
  | pass n s hn hc ih =>
    intro p h
    obtain ⟨hbytes, hafter⟩ := h.pass hn
    obtain ⟨t, hrest, ht⟩ := ih _ hafter
    have hsplit : chunkSize n s + (n - chunkSize n s) = n := Nat.add_sub_cancel' (Nat.min_le_left _ _)
    rw [Nat.add_assoc, hsplit] at ht
    exact ⟨t, by rw [readOut_of_rest hn hc hrest, hbytes, ← streamBytes_add, hsplit], ht⟩

/-! ### Byte reads -/

/-- A byte read as a command returns the next bytes of the stream and leaves the core behind them (R156, R159). -/
theorem exec_readBytes {key : Key} {p : Nat} {s : State} (h : AtPosition key p s) (hs : s.seeded = true) (n : Nat) :
    ∃ t, exec (.readBytes n) s = .next t ∧ t.rsp = s.rsp ++ statusWord .ok n :: packWords (streamBytes key p n) ∧
      AtPosition key (p + n) t ∧ t.seeded = true := by
  obtain ⟨t, hread, ht⟩ := readOut_stream n s h.cur_le p h
  have hx := exec_read_of_body (i := .readBytes n) rfl hs hread
  obtain ⟨bytes, u, hu, hsteps⟩ := readOut_steps n s h.cur_le
  obtain ⟨-, rfl⟩ := Prod.mk.inj (Except.ok.inj (hu.symm.trans hread))
  refine ⟨_, hx, ?_, ht.respond _, keptByEngine_seeded.exec hx hs⟩
  rw [respond_rsp, hsteps.ports_eq.2, readOut_length hread]

theorem keptByEngine_bk (bk : Backend) : KeptByEngine fun s => s.bk = bk where
  answer _ _ h := h
  refill _ h := h
  advance _ _ _ h := h
  seed _ _ _ _ h := h

/-- What a byte read of any length returns and leaves, by the formulas of R156. -/
theorem exec_readBytes_of_good {s : State} (h : Good s) (hs : s.seeded = true) (n : Nat) :
    ∃ t, exec (.readBytes n) s = .next t ∧
      t.rsp = s.rsp ++ statusWord .ok n :: packWords (streamBytes s.key s.cur.toNat n) ∧
      t.cur.toNat = cursorAfter s.cur.toNat n ∧ t.key = ratchetTimes (refillCount s.cur.toNat n) s.key ∧
      t.buf = fillBuf t.key ∧ t.seeded = true ∧ t.bk = s.bk ∧ t.cmd = s.cmd := by
  obtain ⟨t, hx, hrsp, ht, hseeded⟩ := exec_readBytes (.of_good h hs) hs n
  obtain ⟨hkey, hcur⟩ := ht.key_and_cursor (h.cur_le hs)
  exact ⟨t, hx, hrsp, hcur, hkey, ht.buf_eq, hseeded, (keptByEngine_bk s.bk).exec hx rfl, (exec_ports hx).1⟩

/-- Settles O23: the length need not be encodable for it. -/
theorem readBytesResult : Obligations.ReadBytesResult := fun len _ h hs _ => exec_readBytes_of_good h hs len

/-- Settles O25: the two commands have the same body. -/
theorem readSeedResult : Obligations.ReadSeedResult :=
  ⟨fun _ => rfl, fun _ h hs => exec_readBytes_of_good h hs 32⟩

/-! ### The ratchet -/

/-- A word read as a command ratchets the key exactly if it refills (R154, R155, R163). -/
theorem exec_wordRead_key {i : Instr} {n : Nat} {s t : State} (hi : isRead i = true)
    (hbody : commandBody i s = readWhole n s) (hn : 0 < n) (hn' : n ≤ 992) (h : Good s) (hs : s.seeded = true)
    (hx : exec i s = .next t) :
    t.key = ratchetTimes (if s.seeded = true ∧ 992 - s.cur.toNat < n then 1 else 0) s.key := by
  by_cases hleft : 992 - s.cur.toNat < n
  · have hread := hbody.trans (readWhole_of_refill hn' (h.cur_le hs) hleft)
    obtain rfl := Host.Outcome.next.inj ((exec_read_of_body hi hs hread).symm.trans hx)
    rw [if_pos ⟨hs, hleft⟩]
    rw [respond_key, advance_key, refill_key, h.buf_fill hs]
    rfl
  · have hread := hbody.trans (readWhole_within hn (Nat.le_of_not_lt hleft))
    obtain rfl := Host.Outcome.next.inj ((exec_read_of_body hi hs hread).symm.trans hx)
    rw [if_neg (hleft ·.2)]
    rfl

/-- A byte read as a command ratchets the key once per refill (R156, R163). -/
theorem exec_readBytes_key {n : Nat} {s t : State} (h : Good s) (hs : s.seeded = true)
    (hx : exec (.readBytes n) s = .next t) :
    t.key = ratchetTimes (if s.seeded = true then refillCount s.cur.toNat n else 0) s.key := by
  obtain ⟨u, hu, -, -, hkey, -⟩ := exec_readBytes_of_good h hs n
  obtain rfl := Host.Outcome.next.inj (hu.symm.trans hx)
  rw [if_pos hs, hkey]

/-- Settles O31: on an unseeded core a read performs no refill, and on a seeded one its own rule counts them. -/
theorem readsRatchetByRefillCount : Obligations.ReadsRatchetByRefillCount := by
  intro i s t h hi hx
  cases hs : s.seeded with
  | false =>
    have he := commandError_of_unseeded hi hs
    obtain rfl := Host.Outcome.next.inj ((exec_of_error he).symm.trans hx)
    rw [fillCount_of_error he]
    rfl
  | true =>
    cases i with
    | setSeed | cloneState | tryRestoreState => exact nomatch hi
    | readU32 => exact exec_wordRead_key rfl (commandBody_readU32 s) (by decide) (by decide) h hs hx
    | readU64 => exact exec_wordRead_key rfl (commandBody_readU64 s) (by decide) (by decide) h hs hx
    | readBytes len => exact exec_readBytes_key h hs hx
    | readSeed => exact exec_readBytes_key h hs ((readSeedResult.1 s).symm.trans hx)

/-! ### Sequences of reads -/

theorem execAll_cons_of_next {i : Instr} {s t : State} (h : exec i s = .next t) (is : List Instr) :
    execAll (i :: is) s = execAll is t := by
  simp only [execAll, h]

/-- Byte reads one after another return successive segments of the stream (R159). -/
theorem execAll_readBytes {key : Key} {p : Nat} {s : State} (h : AtPosition key p s) (hs : s.seeded = true)
    (ns : List Nat) :
    ∃ t, execAll (ns.map .readBytes) s = .next t ∧ t.rsp = s.rsp ++ segmentResponses key p ns := by
  induction ns generalizing p s with
  | nil => exact ⟨s, rfl, (List.append_nil _).symm⟩
  | cons n ns ih =>
    obtain ⟨u, hx, hrsp, hu, hseeded⟩ := exec_readBytes h hs n
    obtain ⟨t, hrest, hsegments⟩ := ih hu hseeded
    refine ⟨t, (execAll_cons_of_next hx _).trans hrest, ?_⟩
    rw [hsegments, hrsp, List.append_assoc]
    rfl

/-- After SET_SEED, byte reads of any lengths return the seed's stream (R159). -/
theorem execAll_setSeed_readBytes (seed : Key) (ns : List Nat) (s : State) :
    ∃ t, execAll (.setSeed seed :: ns.map .readBytes) s = .next t ∧
      t.rsp = s.rsp ++ 0x00000000 :: segmentResponses seed 0 ns := by
  obtain ⟨t, hx, hrsp⟩ := execAll_readBytes (.of_setSeed seed s) rfl ns
  exact ⟨t, hx, hrsp.trans (List.append_assoc _ _ _)⟩

/-- Settles O32: whether the lengths are encodable does not matter to it. -/
theorem byteReadsReturnStream : Obligations.ByteReadsReturnStream := fun seed ns s _ =>
  execAll_setSeed_readBytes seed ns s

/-- At a position that is a multiple of `w` the cursor is one, and the next `w` bytes lie in one buffer, since the Output
Region ends at a multiple of `w` too (R161). -/
theorem AtPosition.fits {key : Key} {p w : Nat} {s : State} (h : AtPosition key p s) (hw : w ∣ 992) (hp : w ∣ p) :
    s.cur.toNat ≤ 992 - w ∨ s.cur.toNat = 992 := by
  obtain ⟨i, hi, rfl, -⟩ := h
  have hle := hi.cur_le
  have hcur : w ∣ s.cur.toNat := (Nat.dvd_add_right (hw.mul_right i)).1 hp
  rcases Nat.eq_zero_or_pos (992 - s.cur.toNat) with hend | hleft
  · omega
  · have := Nat.le_of_dvd hleft (Nat.dvd_sub hw hcur)
    omega

/-- Word reads of one width, from a position that is a multiple of it, do what byte reads of that width do (R161, R162). -/
theorem execAll_wordReads {i : Instr} {w : Nat} (hi : isRead i = true) (hbody : ∀ s, commandBody i s = readWhole w s)
    (hw : w ∣ 992) {key : Key} {p : Nat} {s : State} (h : AtPosition key p s) (hs : s.seeded = true) (hp : w ∣ p)
    (n : Nat) : execAll (List.replicate n i) s = execAll ((List.replicate n w).map .readBytes) s := by
  induction n generalizing p s with
  | zero => rfl
  | succ n ih =>
    have hpos : 0 < w := Nat.pos_of_dvd_of_pos hw (by decide)
    have hle : w ≤ 992 := Nat.le_of_dvd (by decide) hw
    have hsame := (exec_wordRead_eq_iff hi hbody hpos hle h.cur_le).2 (.inr (h.fits hw hp))
    obtain ⟨t, hx, -, ht, hseeded⟩ := exec_readBytes h hs w
    rw [List.replicate_succ, List.replicate_succ, List.map_cons, execAll_cons_of_next (hsame.trans hx),
      execAll_cons_of_next hx, ih ht hseeded (hp.add dvd_rfl)]

/-- After SET_SEED, word reads of one width return the seed's stream (R161). -/
theorem execAll_setSeed_wordReads {i : Instr} {w : Nat} (hi : isRead i = true)
    (hbody : ∀ s, commandBody i s = readWhole w s) (hw : w ∣ 992) (seed : Key) (n : Nat) (s : State) :
    ∃ t, execAll (.setSeed seed :: List.replicate n i) s = .next t ∧
      t.rsp = s.rsp ++ 0x00000000 :: segmentResponses seed 0 (List.replicate n w) := by
  have hsame := execAll_wordReads hi hbody hw (.of_setSeed seed s) rfl (Nat.dvd_zero w) n
  obtain ⟨t, hx, hrsp⟩ := execAll_setSeed_readBytes seed (List.replicate n w) s
  exact ⟨t, hsame.trans hx, hrsp⟩

/-- Settles O34: 992 is a multiple of both widths. -/
theorem wordReadsAreGapFree : Obligations.WordReadsAreGapFree := fun seed n s =>
  ⟨execAll_setSeed_wordReads rfl commandBody_readU64 (by decide) seed n s,
    execAll_setSeed_wordReads rfl commandBody_readU32 (by decide) seed n s⟩

/-! ### The source's example -/

/-- Eight bytes of the first iteration, from a word's first byte on, are carried by two words of the fill (R136, R155). -/
theorem packWords_streamBytes_eight (key : Key) {j : Nat} (hj : 4 * j + 8 ≤ 992) :
    packWords (streamBytes key (4 * j) 8) = [(fillWords key).getD j 0, (fillWords key).getD (j + 1) 0] := by
  have hstream := streamBytes_within key 0 hj
  rw [Nat.mul_zero, Nat.zero_add] at hstream
  rw [hstream, packWords_readBytes_eight, ← readWord_fillBuf key (by omega), ← readWord_fillBuf key (by omega)]
  rfl

/-- The test seed of 95_test_vectors.md. -/
def sourceSeed : Key :=
  #v[0x44434241, 0x48474645, 0x4c4b4a49, 0x504f4e4d, 0x54535251, 0x58575655, 0x32315a59, 0x36353433]

/-- Words 0 to 5 of the test seed's buffer: words 0 and 1 of its first blocks, which is all that V1 reads. -/
theorem fillWords_sourceSeed_getD {j : Nat} (hj : j < 6) :
    (fillWords sourceSeed).getD j 0 =
      [0x3d4616a5, 0xb773b606, 0xa66abc3c, 0x1160af22, 0x418d287c, 0x8c2599d9].getD j 0 := by
  have hhead : (fillWords sourceSeed).take 6 =
      [0x3d4616a5, 0xb773b606, 0xa66abc3c, 0x1160af22, 0x418d287c, 0x8c2599d9] := by decide +kernel
  rw [← hhead, List.getD_eq_getElem?_getD, List.getD_eq_getElem?_getD, List.getElem?_take_of_lt hj]

/-- Settles O48: the three reads return the first 24 bytes of the stream, and the backend is not looked at. -/
theorem sourceExample : Obligations.SourceExample := by
  obtain ⟨t, hx, hrsp⟩ := (wordReadsAreGapFree sourceSeed 3 State.reset).1
  have hfirst := packWords_streamBytes_eight sourceSeed (j := 0) (by decide)
  have hsecond := packWords_streamBytes_eight sourceSeed (j := 2) (by decide)
  have hthird := packWords_streamBytes_eight sourceSeed (j := 4) (by decide)
  refine ⟨t, hx, hrsp.trans ?_⟩
  simp only [List.replicate, segmentResponses]
  rw [hfirst, hsecond, hthird]
  simp only [Nat.reduceAdd, Nat.reduceLT, fillWords_sourceSeed_getD]
  rfl

end Sys2Proof.Machine

/-! SUPPORT and PROOFS for the family 43_snapshot.md: what CLONE_STATE reports, both outcomes of TRY_RESTORE_STATE, and the
round trip of a snapshot. -/

namespace Sys2Proof.Machine

/-! ### Taking a snapshot -/

/-- The snapshot's bytes are carried by its key words and its count word (R77, R180). -/
theorem packWords_bytesOfKey_append_bytes32 (key : Key) (bc : Word) :
    packWords (bytesOfKey key ++ bytes32 bc) = key.toList ++ [bc] := by
  have hbytes : bytesOfKey key ++ bytes32 bc = bytesOfWords (key.toList ++ [bc]) := by simp [bytesOfKey, bytesOfWords]
  rw [hbytes, packWords_bytesOfWords]

/-- On a seeded core CLONE_STATE responds with the snapshot and writes nothing else (R180). -/
theorem exec_cloneState_of_seeded {s : State} (hs : s.seeded = true) :
    exec .cloneState s =
      .next { s with rsp := s.rsp ++ 0x00002400 :: (s.key.toList ++ [BitVec.ofNat 32 (snapshotCount s)]) } := by
  have hx : exec .cloneState s = finish (respondRead (commandBody .cloneState s)) := exec_of_body (if_pos hs)
  have hlen := commandBody_length (i := .cloneState) (s := s) rfl
  rw [hx, commandBody, finish_respondRead_ok, respond, hlen, packWords_bytesOfKey_append_bytes32]
  rfl

/-- Settles O26: on an unseeded core CLONE_STATE raises its one error. -/
theorem cloneStateResult : Obligations.CloneStateResult := fun s =>
  ⟨fun hs => exec_of_error (i := .cloneState) (st := .unseeded) (by simp [commandError, hs]), exec_cloneState_of_seeded⟩

/-! ### Restoring a snapshot -/

/-- A count above 992 is answered with InvalidSnapshot, before any state is written (R181, R184). -/
theorem exec_tryRestoreState_of_gt (key : Key) {bc : Word} (h : 992 < bc.toNat) (s : State) :
    exec (.tryRestoreState key bc) s = .next { s with rsp := s.rsp ++ [0x00000001] } :=
  exec_of_error (i := .tryRestoreState key bc) (if_pos h)

/-- Any other count raises no error (R181). -/
theorem commandError_tryRestoreState_of_le (key : Key) {bc : Word} (h : bc.toNat ≤ 992) (s : State) :
    commandError (.tryRestoreState key bc) s = none :=
  if_neg (Nat.not_lt.2 h)

/-- Any other count seeds the core and becomes its cursor (R181). -/
theorem exec_tryRestoreState_of_le (key : Key) {bc : Word} (h : bc.toNat ≤ 992) (s : State) :
    exec (.tryRestoreState key bc) s = .next (respond [] { seedFill key s with cur := bc.setWidth 16 }) :=
  exec_of_body (commandError_tryRestoreState_of_le key h s)

/-- Settles O27: the two outcomes meet at a count of 992. -/
theorem tryRestoreStateResult : Obligations.TryRestoreStateResult := fun key _ s =>
  ⟨fun h => exec_tryRestoreState_of_gt key h s, fun h =>
    have hcount := restoreCount_le (commandError_tryRestoreState_of_le key h s)
    ⟨_, exec_tryRestoreState_of_le key h s, rfl, rfl, hcount.2, rfl, rfl, rfl, rfl⟩⟩

/-- Settles O38: the rejected restore is one command of the sequence, and leaves its one response word. -/
theorem rejectedRestoreIsInvisible : Obligations.RejectedRestoreIsInvisible := fun key _ is s h =>
  execAll_cons_of_next (exec_tryRestoreState_of_gt key h s) is

/-! ### The round trip -/

/-- The count of a snapshot is never rejected, whatever the cursor (R180, R181). -/
theorem toNat_snapshotCount_le (s : State) : (BitVec.ofNat 32 (snapshotCount s)).toNat ≤ 992 := by
  rw [BitVec.toNat_ofNat]
  exact (Nat.mod_le _ _).trans (Nat.min_le_right _ _)

/-- With the cursor inside the Output Region a snapshot's count loses nothing of it (R180). -/
theorem setWidth_snapshotCount {s : State} (h : s.cur.toNat ≤ 992) :
    (BitVec.ofNat 32 (snapshotCount s)).setWidth 16 = s.cur := by
  have hcount : snapshotCount s = s.cur.toNat := Nat.min_eq_left h
  apply BitVec.eq_of_toNat_eq
  rw [hcount, BitVec.toNat_setWidth, BitVec.toNat_ofNat]
  omega

/-- Seeding any core with K and moving its cursor to CUR makes the engine they were taken from, since BUF is the fill from
K (R32, R183). -/
theorem sameEngine_seedFill {s : State} (h : Good s) (hs : s.seeded = true) (u : State) :
    SameEngine s { seedFill s.key u with cur := s.cur } :=
  ⟨hs, rfl, h.buf_fill hs, rfl⟩

/-- From a seeded state that meets the invariant, cores with like engines never stop and answer every command sequence
alike (R36). -/
theorem execAll_alike_of_good {s u : State} (h : Good s) (hs : s.seeded = true) (hsame : SameEngine s u)
    (is : List Instr) :
    ∃ s' u' r, execAll is s = .next s' ∧ execAll is u = .next u' ∧ SameEngine s' u' ∧ s'.rsp = s.rsp ++ r ∧
      u'.rsp = u.rsp ++ r :=
  (likeEnginesAnswerAlike is s u hsame).resolve_right fun ⟨_, hcur, _⟩ => Nat.not_le_of_lt hcur (h.cur_le hs)

/-- Settles O37: the snapshot holds K and CUR, and a restore makes the rest of the engine from them. -/
theorem snapshotRoundTrip : Obligations.SnapshotRoundTrip := by
  intro s u h hs
  have hrestore := exec_tryRestoreState_of_le s.key (toNat_snapshotCount_le s) u
  rw [setWidth_snapshotCount (h.cur_le hs)] at hrestore
  have hsame : SameEngine s (respond [] { seedFill s.key u with cur := s.cur }) := sameEngine_seedFill h hs u
  exact ⟨_, s.key, BitVec.ofNat 32 (snapshotCount s), _, exec_cloneState_of_seeded hs, rfl, hrestore, hsame,
    execAll_alike_of_good h hs hsame⟩

end Sys2Proof.Machine

/-! SUPPORT and PROOFS for the family 60_exceptions.md: which command words are illegal and what they raise, what an error
response says of the command, and the independence of the cores. -/

namespace Sys2Proof

/-! ### Which command words are illegal -/

theorem toNat_opcField (cw : Word) : (opcField cw).toNat = cw.toNat % 256 := by
  simp [opcField]

theorem toNat_argField (cw : Word) : (argField cw).toNat = cw.toNat / 256 := by
  simp [argField, BitVec.extractLsb'_toNat, Nat.shiftRight_eq_div_pow]
  omega

/-- A word whose ARG must be 0 is illegal exactly if it is not (R79 (ii)). -/
theorem requireZeroArg_error_iff {cw : Word} {h : Head} :
    (∃ why, requireZeroArg cw h = .error why) ↔ (argField cw).toNat ≠ 0 := by
  unfold requireZeroArg
  split
  case isTrue h0 => simp [h0]
  case isFalse h0 => exact iff_of_true ⟨_, rfl⟩ fun h => h0 (BitVec.eq_of_toNat_eq h)

/-- The illegal command words: the reserved opcodes, and a nonzero ARG on an opcode other than READ_BYTES (R79, R192). -/
theorem decodeHead_error_iff {cw : Word} :
    (∃ why, decodeHead cw = .error why) ↔
      cw.toNat % 256 = 0 ∨ 8 ≤ cw.toNat % 256 ∨ (cw.toNat % 256 ≠ 4 ∧ cw.toNat / 256 ≠ 0) := by
  rw [← toNat_opcField, ← toNat_argField]
  unfold decodeHead
  split
  case h_4 hopc => simp [hopc]
  case h_8 =>
    refine iff_of_true ⟨_, rfl⟩ ?_
    simp only [imp_false] at *
    omega
  all_goals
    rw [requireZeroArg_error_iff]
    omega

end Sys2Proof

namespace Sys2Proof.Machine

/-! ### Stops and illegal words -/

/-- Settles O5: of the invariant only R32 (i) is needed. -/
theorem stepNeverStops : Obligations.StepNeverStops := fun _ h => step_next h.cur_le

/-- With the response port empty, an illegal word at the head of the command port is taken alone and answered (R192). -/
theorem step_of_illegal {s : State} {why : Illegal} {rest : List Word} (hr : s.rsp = [])
    (hd : decode s.cmd = .illegal why rest) : step s = .next { s with cmd := rest, rsp := [0x00000002] } := by
  simp only [step, fetch, hr, hd]
  rfl

/-- Settles O12: whether a word is illegal is read off its two fields. -/
theorem illegalWordRaises : Obligations.IllegalWordRaises := by
  intro s cw ws hr hcmd
  constructor
  · intro hfields
    obtain ⟨why, hhead⟩ := decodeHead_error_iff.2 hfields
    exact step_of_illegal hr (hcmd ▸ decode_cons_of_error hhead ws)
  · intro hfields why rest hd
    obtain ⟨cw', hhead, hws⟩ := eq_cons_of_decode_illegal hd
    obtain ⟨rfl, -⟩ := List.cons.inj hws
    exact hfields (decodeHead_error_iff.1 ⟨why, hhead⟩)

/-! ### What an error response says -/

/-- The low byte of a status word is the code of its status, whatever the length (R76). -/
theorem toNat_statusWord_mod (st : Status) (n : Nat) : (statusWord st n).toNat % 256 = st.code.toNat := by
  have hcode : st.code.toNat < 256 := st.code.isLt
  rw [statusWord, BitVec.toNat_ofNat]
  omega

theorem code_injective {st st' : Status} (h : st.code = st'.code) : st = st' := by
  revert h
  cases st <;> cases st' <;> decide

/-- A status word tells its status (R76, R190). -/
theorem status_eq_of_statusWord_eq {st st' : Status} {n n' : Nat} (h : statusWord st n = statusWord st' n') : st = st' :=
  code_injective (BitVec.eq_of_toNat_eq (by rw [← toNat_statusWord_mod st n, h, toNat_statusWord_mod]))

/-- The response of an error is given only by a command that raised that error in place of its body (R194, R196). -/
theorem commandError_of_error_response {i : Instr} {s t : State} {st : Status} (hst : st ≠ .ok)
    (h : exec i s = .next t) (hrsp : t.rsp = s.rsp ++ [statusWord st 0]) : commandError i s = some st := by
  cases he : commandError i s with
  | some raised =>
    obtain rfl : raise raised s = t := Host.Outcome.next.inj ((exec_of_error he).symm.trans h)
    have hword := List.append_cancel_left ((raise_rsp raised s).symm.trans hrsp)
    exact congrArg some (status_eq_of_statusWord_eq (List.cons.inj hword).1)
  | none =>
    rcases commandBody_worksOrStops he with ⟨bytes, u, hb, hsteps⟩ | ⟨-, hb⟩
    · obtain rfl : respond bytes u = t := by
        rw [exec_of_body he, hb, finish_respondRead_ok] at h
        exact Host.Outcome.next.inj h
      rw [respond_rsp, hsteps.ports_eq.2] at hrsp
      have hword := List.append_cancel_left hrsp
      exact absurd (status_eq_of_statusWord_eq (List.cons.inj hword).1).symm hst
    · rw [exec_of_body he, hb] at h
      exact nomatch h

/-- Settles O18: the command raised the error its response names. -/
theorem errorsChangeNothing : Obligations.ErrorsChangeNothing := fun _ _ _ _ hst h hrsp =>
  (Host.Outcome.next.inj ((exec_of_error (commandError_of_error_response hst h hrsp)).symm.trans h)).symm

/-- Settles O19: SET_SEED has no error, and the one error of TRY_RESTORE_STATE is InvalidSnapshot. -/
theorem unseededRaises : Obligations.UnseededRaises := by
  refine ⟨?_, ?_, ?_⟩
  · rintro i s (hi | rfl) hs
    · exact exec_read_of_unseeded hi hs
    · exact (cloneStateResult s).1 hs
  · intro key s t h hrsp
    exact nomatch commandError_of_error_response (st := .unseeded) (by decide) h hrsp
  · intro key bc s t h hrsp
    have he := commandError_of_error_response (st := .unseeded) (by decide) h hrsp
    simp [commandError] at he

/-! ### Several cores -/

/-- All that a move at a core does, if it does not stop: the core, if it is there, comes to what its own move leaves, and
the others stay (R204). A core that is not there is replaced by any state without effect. -/
theorem moveAt_eq_next_iff {c : Nat} {m : Move} {cs as : Cores} :
    moveAt c m cs = .next as ↔ ∃ t, (∀ s, cs[c]? = some s → move m s = .next t) ∧ as = cs.set c t := by
  cases hc : cs[c]? with
  | none =>
    have hset : ∀ t, cs.set c t = cs := fun t => List.set_eq_of_length_le (List.getElem?_eq_none_iff.1 hc)
    simp only [moveAt, hc, hset, Host.Outcome.next.injEq]
    exact ⟨fun h => ⟨State.reset, nofun, h.symm⟩, fun ⟨_, _, h⟩ => h.symm⟩
  | some s =>
    simp only [moveAt, hc, Option.some.injEq, forall_eq']
    cases hm : move m s with
    | next t => simp [eq_comm]
    | fault f => simp
    | refused r => simp

/-- Settles O52: each move writes one element of the list, and looks at that one only. -/
theorem coresAreIndependent : Obligations.CoresAreIndependent := by
  constructor
  · intro c m cs cs' h
    obtain ⟨t, -, rfl⟩ := moveAt_eq_next_iff.1 h
    exact ⟨List.length_set, fun d hd => List.getElem?_set_ne hd.symm⟩
  · intro c d m n cs as bs hcd has hbs
    obtain ⟨t, ht, rfl⟩ := moveAt_eq_next_iff.1 has
    obtain ⟨u, hu, rfl⟩ := moveAt_eq_next_iff.1 hbs
    rw [List.getElem?_set_ne hcd] at hu
    refine ⟨cs.set d u, moveAt_eq_next_iff.2 ⟨u, hu, rfl⟩, moveAt_eq_next_iff.2 ⟨t, ?_, List.set_comm t u hcd⟩⟩
    rwa [List.getElem?_set_ne hcd.symm]

end Sys2Proof.Machine

/-! SUPPORT and PROOFS for the family 70_reset_and_hazards.md: what only a reset writes, when the hardware waits, and the
control path of a command, which no secret reaches. -/

namespace Sys2Proof.Machine

/-! ### What only a reset writes -/

/-- Settles O6: everything the engine can do keeps BK and a set SEEDED, and taking or offering words touches neither. -/
theorem onlyResetWritesBackend : Obligations.OnlyResetWritesBackend :=
  ⟨fun s _ h => ⟨(keptByEngine_bk s.bk).step (fun _ _ hbk => hbk) h rfl,
      keptByEngine_seeded.step (fun _ _ hs => hs) h⟩,
    fun w s => ⟨offer_bk w s, offer_seeded w s⟩, fun s => ⟨takeResponse_bk s, takeResponse_seeded s⟩⟩

/-! ### Waiting -/

/-- Settles O14: the words that are still missing make the words on the port no command yet. -/
theorem incompleteCommandWaits : Obligations.IncompleteCommandWaits := by
  intro i n s hwf hn hcmd
  have hmissing : (encode i).drop n ≠ [] := by simpa using hn
  exact step_of_incomplete (decode_incomplete hwf (hcmd ▸ List.take_append_drop n (encode i)) hmissing)

/-- Settles O15: a step that does not wait finds the response port empty. -/
theorem untakenResponseHolds : Obligations.UntakenResponseHolds := by
  intro s hrsp
  rcases step_cases s with hwait | ⟨i, rest, hempty, -, -⟩ | ⟨why, rest, hempty, -, -⟩
  · exact hwait
  · exact absurd hempty hrsp
  · exact absurd hempty hrsp

/-! ### The cursor a command leaves -/

/-- Where a word read of `n` bytes from cursor `c` leaves the cursor (R154, R155). -/
def cursorAfterWord (c n : Nat) : Nat := if 992 - c < n then n else c + n

/-- Where the body of a command leaves the cursor: a function of the opcode, the length or count, and the cursor. -/
def cursorLeft (i : Instr) (c : Nat) : Nat :=
  match i with
  | .setSeed _ => 0
  | .readU32 => cursorAfterWord c 4
  | .readU64 => cursorAfterWord c 8
  | .readBytes len => cursorAfter c len
  | .readSeed => cursorAfter c 32
  | .cloneState => c
  | .tryRestoreState _ bc => bc.toNat

theorem readWhole_cur {n : Nat} {s t : State} {bytes : List Byte} (hn : n ≤ 992) (hc : s.cur.toNat ≤ 992)
    (h : readWhole n s = .ok (bytes, t)) : t.cur.toNat = cursorAfterWord s.cur.toNat n := by
  obtain ⟨-, rfl⟩ := Prod.mk.inj (Except.ok.inj ((readWhole_eq hn hc).symm.trans h))
  unfold cursorAfterWord
  split
  · rw [advance_cur_toNat (by simpa using hn)]
    simp
  · exact advance_cur_toNat (by omega)

/-- A pass of the byte loop leaves the cursor where the rest of the read ends up as the whole does (R156). -/
theorem cursorAfter_afterChunk {n : Nat} {s : State} (hn : 0 < n) (hc : s.cur.toNat ≤ 992) :
    cursorAfter (afterChunk n s).cur.toNat (n - chunkSize n s) = cursorAfter s.cur.toNat n := by
  have hstart : (chunkStart s).cur.toNat = if s.cur.toNat = 992 then 0 else s.cur.toNat := by
    unfold chunkStart
    split <;> rfl
  rw [afterChunk, advance_cur_toNat (chunkSize_le hc), chunkSize, hstart]
  unfold cursorAfter
  split <;> split <;> split <;> omega

/-- A byte read leaves the cursor where R156's formula says, whatever the buffer holds. -/
theorem readOut_cur {n : Nat} {s t : State} {bytes : List Byte} (hc : s.cur.toNat ≤ 992)
    (h : readOut n s = .ok (bytes, t)) : t.cur.toNat = cursorAfter s.cur.toNat n := by
  induction n, s, hc using readOut_induction generalizing bytes with
  | zero s hc =>
    obtain ⟨-, rfl⟩ := Prod.mk.inj (Except.ok.inj h)
    simp [cursorAfter]
  | pass n s hn hc ih =>
    obtain ⟨more, u, hrest, -⟩ := readOut_steps (n - chunkSize n s) (afterChunk n s) (afterChunk_cur_le hc)
    obtain ⟨-, rfl⟩ := Prod.mk.inj (Except.ok.inj ((readOut_of_rest hn hc hrest).symm.trans h))
    rw [ih hrest, cursorAfter_afterChunk hn hc]

theorem commandBody_cur {i : Instr} {s t : State} {bytes : List Byte} (he : commandError i s = none)
    (hc : s.cur.toNat ≤ 992) (h : commandBody i s = .ok (bytes, t)) : t.cur.toNat = cursorLeft i s.cur.toNat := by
  cases i with
  | readU32 => exact readWhole_cur (by decide) hc ((commandBody_readU32 s).symm.trans h)
  | readU64 => exact readWhole_cur (by decide) hc ((commandBody_readU64 s).symm.trans h)
  | readBytes len => exact readOut_cur hc h
  | readSeed => exact readOut_cur hc h
  | setSeed | cloneState =>
    obtain ⟨-, rfl⟩ := Prod.mk.inj (Except.ok.inj h)
    rfl
  | tryRestoreState seed bc =>
    obtain ⟨-, rfl⟩ := Prod.mk.inj (Except.ok.inj h)
    exact (restoreCount_le he).2

/-! ### The control path -/

/-- A command without an error, CUR being in range, leaves the cursor and a response of the length its operands fix. -/
theorem exec_result {i : Instr} {s : State} (he : commandError i s = none) (hc : s.cur.toNat ≤ 992) :
    ∃ t bytes, exec i s = .next t ∧ t.cur.toNat = cursorLeft i s.cur.toNat ∧
      t.rsp = s.rsp ++ statusWord .ok (resultLength i) :: packWords bytes ∧ bytes.length = resultLength i := by
  rcases commandBody_worksOrStops he with ⟨bytes, t, hb, hsteps⟩ | ⟨hfault, -⟩
  · have hlen := commandBody_length hb
    have hcur := commandBody_cur he hc hb
    refine ⟨respond bytes t, bytes, ?_, hcur, ?_, hlen⟩
    · rw [exec_of_body he, hb, finish_respondRead_ok]
    · rw [respond_rsp, hsteps.ports_eq.2, hlen]
  · exact absurd hfault (Nat.not_lt.2 hc)

theorem commandError_publicPart (i : Instr) (s : State) : commandError (publicPart i) s = commandError i s := by
  cases i <;> rfl

theorem fillCount_publicPart (i : Instr) (s : State) : fillCount (publicPart i) s = fillCount i s := by
  cases i <;> rfl

theorem cursorLeft_publicPart (i : Instr) (c : Nat) : cursorLeft (publicPart i) c = cursorLeft i c := by
  cases i <;> rfl

theorem resultLength_publicPart (i : Instr) : resultLength (publicPart i) = resultLength i := by
  cases i <;> rfl

/-- Whether a command raises an error depends on its public part and SEEDED (R190, R231). -/
theorem commandError_congr {i j : Instr} {s u : State} (hpublic : publicPart i = publicPart j)
    (hseeded : s.seeded = u.seeded) : commandError i s = commandError j u := by
  rw [← commandError_publicPart i, ← commandError_publicPart j, hpublic]
  cases publicPart j <;> simp only [commandError, hseeded]

/-- How many fills a command performs depends on its public part, SEEDED and CUR (R166, R231). -/
theorem fillCount_congr {i j : Instr} {s u : State} (hpublic : publicPart i = publicPart j)
    (hseeded : s.seeded = u.seeded) (hcur : s.cur = u.cur) : fillCount i s = fillCount j u := by
  rw [← fillCount_publicPart i, ← fillCount_publicPart j, hpublic]
  cases publicPart j <;> simp only [fillCount, hseeded, hcur]

/-- SEEDED after a command depends on SEEDED before it and on the number of its fills (R31). -/
theorem exec_seeded_congr {i j : Instr} {s u s' u' : State} (hs : exec i s = .next s') (hu : exec j u = .next u')
    (hseeded : s.seeded = u.seeded) (hfill : fillCount i s = fillCount j u) : s'.seeded = u'.seeded := by
  have h : s'.seeded = false ↔ u'.seeded = false := by rw [exec_seeded_iff hs, exec_seeded_iff hu, hseeded, hfill]
  simpa using h

/-- Settles O39: both commands raise the same error, or both respond with what their common public part fixes. -/
theorem controlPathIgnoresSecrets : Obligations.ControlPathIgnoresSecrets := by
  intro i j s u hpublic hseeded hcur hc
  have hfill := fillCount_congr hpublic hseeded hcur
  have herror := commandError_congr hpublic hseeded
  refine ⟨hfill, ?_⟩
  cases he : commandError i s with
  | some st =>
    exact ⟨_, _, statusWord st 0, [], [], exec_of_error he, exec_of_error (herror ▸ he), hcur, hseeded, rfl, rfl, rfl⟩
  | none =>
    have hleft : cursorLeft i s.cur.toNat = cursorLeft j u.cur.toNat := by
      rw [← cursorLeft_publicPart i, ← cursorLeft_publicPart j, hpublic, hcur]
    have hlength : resultLength i = resultLength j := by
      rw [← resultLength_publicPart i, ← resultLength_publicPart j, hpublic]
    obtain ⟨s', bytes, hs, hcs, hrs, hls⟩ := exec_result he hc
    obtain ⟨u', bytes', hu, hcu, hru, hlu⟩ := exec_result (herror ▸ he) (hcur ▸ hc)
    exact ⟨s', u', _, packWords bytes, packWords bytes', hs, hu, BitVec.eq_of_toNat_eq (by rw [hcs, hcu, hleft]),
      exec_seeded_congr hs hu hseeded hfill, hrs, hlength ▸ hru, by simp only [packWords_length, hls, hlu, hlength]⟩

end Sys2Proof.Machine
